-- ==== Sys2Proof/Word.lean ====
section
/-! DEFINITION. The word types of the block (spec `00_scope.md` rules R6 and R8, `30_encoding.md` rules R83 and R86). -/

namespace Sys2Proof

/-- An 8-bit datum, the `byte` of rule R83. -/
abbrev Byte := BitVec 8

/-- A 16-bit datum, the `word` of rule R83. -/
abbrev Word := BitVec 16

/-- A 16-bit address, the `addr` of rule R83. -/
abbrev Addr := BitVec 16

/-- A request word: 40 bits, `op[39:32] addr[31:16] data[15:0]` (rule R86). -/
abbrev ReqWord := BitVec 40

end Sys2Proof
end

