-- ==== Sys2Proof/Config.lean ====
section
/-! DEFINITION. What one instance of the block is built from: the bank kinds, the flag set and the construction
parameters (spec `00_scope.md` rule R7, `10_state.md` rules R26 and R27, `30_encoding.md` rule R82).

The fixed parameters of rule R6 (bases, lengths, windows, latch address, reset writes) stand beside the operations
that use them, in `Machine/Banks.lean`, `Machine/Flags.lean`, `Machine/Ops.lean` and `Machine/ResetOp.lean`. No
value of this hardware is left undefined by an operation, so there is no opaque constant here. -/

namespace Sys2Proof

/-- The five bank kinds, in the order rule R82 numbers them. -/
inductive BankKind where
  | ram
  | basicRom
  | characterRom
  | ioWindow
  | kernalRom
  deriving DecidableEq, Repr

/-- The four bank-switching flags of rule R27. -/
structure Flags where
  /-- `basic_on`: BASIC-ROM visible in its window. -/
  basicOn : Bool
  /-- `chargen_on`: CHARACTER-ROM visible in 0xD000 to 0xDFFF. -/
  chargenOn : Bool
  /-- `io_on`: IO-WINDOW visible in 0xD000 to 0xDFFF when `chargenOn` is false. -/
  ioOn : Bool
  /-- `kernal_on`: KERNAL-ROM visible in 0xE000 to 0xFFFF. -/
  kernalOn : Bool
  deriving DecidableEq, Repr

/-- The open parameters of rule R7, the arguments of CONSTRUCT (`45_reset_op.md` rule R153). An image is given as
the list of its bytes, byte `i` first read at index `i`; `construct` refuses a wrong length (rule R154). -/
structure ConstructParams where
  basicImage  : List Byte
  charImage   : List Byte
  kernalImage : List Byte
  ramInit     : List Byte
  ioInit      : List Byte
  flagsInit   : Flags
  deriving DecidableEq, Repr

namespace Config

/-- What an index of a bank reads as when the bank's cell list does not hold it. The spec fixes no byte of any bank
at construction (rules R7 and R37); this one is DESIGN CHOICE, unsafe where a claim rests on `State.reset`'s
unwritten bytes, logs 4, 5 and 6. A claim over all states or over all construction parameters does not rest on it. -/
def unlistedByte : Byte := 0x00

end Config

end Sys2Proof
end

