-- ==== Sys2Proof/Machine/Memory.lean ====
section
/-! DEFINITION. The storage of one bank (spec `10_state.md` rules R21 to R26): a list of (index, byte) cells in one
canonical form, indices strictly rising and no cell equal to what an unlisted index reads as, so that equal contents
are equal lists. The index is the integer `address - base_offset` of `30_encoding.md` rule R84. -/

namespace Sys2Proof.Machine

/-- The cells of one bank. -/
abbrev Memory := List Host.Cell

/-- The byte at an index: the first cell of that index, else `Config.unlistedByte`. -/
def Memory.read : Memory → Nat → Byte
  | [], _ => Config.unlistedByte
  | (j, b) :: rest, i => if j = i then b else Memory.read rest i

/-- The cells without those of one index. -/
def Memory.erase : Memory → Nat → Memory
  | [], _ => []
  | (j, b) :: rest, i => if j = i then Memory.erase rest i else (j, b) :: Memory.erase rest i

/-- A cell put before the first cell of a larger index. -/
def Memory.insert : Memory → Nat → Byte → Memory
  | [], i, v => [(i, v)]
  | (j, b) :: rest, i, v => if i < j then (i, v) :: (j, b) :: rest else (j, b) :: Memory.insert rest i v

/-- A store: the byte `v` at index `i`, in canonical form. -/
def Memory.write (m : Memory) (i : Nat) (v : Byte) : Memory :=
  if v = Config.unlistedByte then m.erase i else (m.erase i).insert i v

/-- `Memory.wfFrom lo size m`: the indices of `m` rise strictly from at least `lo`, all stay below `size`, and no
cell holds the unlisted byte. -/
def Memory.wfFrom (lo size : Nat) : Memory → Bool
  | [] => true
  | (j, b) :: rest =>
    decide (lo ≤ j) && decide (j < size) && decide (b ≠ Config.unlistedByte) && Memory.wfFrom (j + 1) size rest

/-- The canonical form of a bank of `size` bytes. -/
def Memory.wf (size : Nat) (m : Memory) : Bool := Memory.wfFrom 0 size m

/-- The cells, from index `i` on, of a storage whose bytes are given in order ("verbatim", rule R153). -/
def Memory.ofBytesFrom : Nat → List Byte → Memory
  | _, [] => []
  | i, b :: rest =>
    if b = Config.unlistedByte then Memory.ofBytesFrom (i + 1) rest
    else (i, b) :: Memory.ofBytesFrom (i + 1) rest

/-- A storage whose byte `i` is byte `i` of the list (rule R153). -/
def Memory.ofBytes (bytes : List Byte) : Memory := Memory.ofBytesFrom 0 bytes

end Sys2Proof.Machine
end

