-- ==== Sys2Proof/Syntax.lean ====
section
/-! DEFINITION. The operations of the block (spec `30_encoding.md` rule R85), one constructor per row of
`spec/opcode_table.json`, and the fields of a request word (rule R86). -/

namespace Sys2Proof

/-- The seven operations of rule R85. Operands have exactly the width rule R83 gives them (log 20). -/
inductive Instr where
  /-- READ_BYTE a, `43_byte_access.md` rule R130. -/
  | readByte (a : Addr)
  /-- WRITE_BYTE a, v, `43_byte_access.md` rule R131. -/
  | writeByte (a : Addr) (v : Byte)
  /-- READ_WORD_LE a, `44_word_access.md` rule R141. -/
  | readWordLe (a : Addr)
  /-- READ_WORD_BE a, `44_word_access.md` rule R142. -/
  | readWordBe (a : Addr)
  /-- WRITE_WORD_LE a, w, `44_word_access.md` rule R143. -/
  | writeWordLe (a : Addr) (w : Word)
  /-- WRITE_WORD_BE a, w, `44_word_access.md` rule R144. -/
  | writeWordBe (a : Addr) (w : Word)
  /-- RESET, `45_reset_op.md` rule R150. -/
  | reset
  deriving DecidableEq, Repr

/-- The three fields of a request word (rule R86). -/
structure RequestFields where
  op   : Byte
  addr : Addr
  data : Word
  deriving DecidableEq, Repr

/-- Why a request word is reserved (rule R89): the names under which the decoder rejects one. -/
inductive Rejection where
  /-- `op` in 0x07 to 0xFF. -/
  | reservedOpcode (op : Byte)
  /-- `addr` is not zero where rule R87 says it must be. -/
  | addrNotZero (op : Byte) (addr : Addr)
  /-- `data`, or the part of it rule R87 names, is not zero where it must be. -/
  | dataNotZero (op : Byte) (data : Word)
  deriving DecidableEq, Repr

/-- The responses of rule R88, a sum with no bit layout (log 22). -/
inductive Response where
  /-- `Byte(b)`, of READ_BYTE. -/
  | byte (b : Byte)
  /-- `Word(w)`, of the two word reads. -/
  | word (w : Word)
  /-- `Wrote(visible)`, of the three writes. -/
  | wrote (visible : Bool)
  /-- `Done`, of RESET. -/
  | done
  /-- `Fault(code)`, of an operation that raises and of every request to a faulted block. -/
  | fault (code : Nat)
  deriving DecidableEq, Repr

end Sys2Proof
end

