-- ==== Sys2Proof/Machine/State.lean ====
section
/-! DEFINITION. The complete state of the block (spec `10_state.md` rule R20), the reasons of a fault and of a refusal,
and the state right after RESET (rule R37). -/

namespace Sys2Proof.Machine

/-- The fault causes of `60_exceptions.md` rule R160, each with the information rules R161 to R163 record (log 10).
A fault here is what the block's `fault` state element holds: raising one is a NEXT state (rule R165, log 8), and
the model's step never stops with one. -/
inductive Fault where
  /-- WRITE_TO_READ_ONLY, code 1: raised by `bankWrite` on a ROM kind (rules R103 and R161). Unreachable through the
  operations. Safe: nothing is stored. -/
  | writeToReadOnly (k : BankKind) (a : Nat)
  /-- ADDRESS_OUT_OF_RANGE, code 2: raised by `resolve` beyond 16 bits (rule R115) and by the four word operations at
  0xFFFF (rules R146 and R162). Safe: raised before any byte access. -/
  | addressOutOfRange (a : Nat)
  /-- BANK_INDEX_OUT_OF_RANGE, code 3: raised by `bankRead` and `bankWrite` with an index outside the storage (rules
  R101 and R163). Safe: no value is returned. -/
  | bankIndexOutOfRange (k : BankKind) (a : Nat)
  deriving DecidableEq, Repr

/-- Why the model gives an input no meaning (`00_scope.md` rule R10, *refuse*). -/
inductive Refusal where
  /-- Raised by an arm of `exec` that has no meaning yet; no arm is left in that case. Safe. -/
  | notModelled (mnemonic : String)
  /-- Raised by `step` on a reserved request word (`30_encoding.md` rule R89). Safe (log 9). -/
  | reservedRequest (why : Rejection)
  /-- Raised by `construct` on an image of the wrong length (`45_reset_op.md` rule R154). Safe (log 19). -/
  | imageLength (k : BankKind) (length : Nat)
  deriving DecidableEq, Repr

/-- The state of rule R20, and the two lists that stand for the block's interface to its one requester. -/
structure State where
  /-- The RAM bank, 65536 bytes; index 0x0001 is the latch byte (rules R21 and R30). -/
  ram : Memory
  /-- The BASIC-ROM bank, 8192 bytes (rule R22). -/
  basic : Memory
  /-- The CHARACTER-ROM bank, 4096 bytes (rule R23). -/
  char : Memory
  /-- The IO-WINDOW bank, 4096 bytes (rule R24). -/
  io : Memory
  /-- The KERNAL-ROM bank, 8192 bytes (rule R25). -/
  kernal : Memory
  /-- The flag latch (rule R27). -/
  flags : Flags
  /-- The first reserved cartridge flag (rule R29). -/
  cartA : Bool
  /-- The second reserved cartridge flag (rule R29). -/
  cartB : Bool
  /-- The sticky fault record (rule R35). -/
  fault : Option Fault
  /-- The request words the requester has still to issue, in issue order (rules R86 and R91, log 1). -/
  requests : List ReqWord
  /-- The responses given, oldest first (rules R88 and R192, log 2). -/
  responses : List Response
  deriving DecidableEq, Repr

/-- The state right after the RESET operation (rule R37, last column): `RAM[0x0000]` = 0xFF, `RAM[0x0001]` = 0x07,
the flags of latch value 7 (log 15), no fault, both cartridge flags false. Every other byte of every bank is a
construction parameter the spec gives no value for: `Config.unlistedByte` here (DESIGN CHOICE, unsafe, logs 4 to 6). -/
def State.reset : State where
  ram := [(0x0000, 0xFF#8), (0x0001, 0x07#8)]
  basic := []
  char := []
  io := []
  kernal := []
  flags := { basicOn := true, chargenOn := false, ioOn := true, kernalOn := true }
  cartA := false
  cartB := false
  fault := none
  requests := []
  responses := []

end Sys2Proof.Machine
end

