-- ==== Sys2Proof/Machine/Banks.lean ====
section
/-! DEFINITION. The Bank component (spec `40_bank.md`): the attributes of a bank kind (`10_state.md` rule R26) and the
internal functions BANK_READ and BANK_WRITE (rules R100 to R103). -/

namespace Sys2Proof.Machine

/-- The number of a bank kind, `30_encoding.md` rule R82; no rule depends on it. -/
def bankNumber : BankKind → Nat
  | .ram => 0
  | .basicRom => 1
  | .characterRom => 2
  | .ioWindow => 3
  | .kernalRom => 4

/-- `ro(k)`, `10_state.md` rule R26. -/
def bankReadOnly : BankKind → Bool
  | .ram => false
  | .basicRom => true
  | .characterRom => true
  | .ioWindow => false
  | .kernalRom => true

/-- `base(k)`, `10_state.md` rule R26. -/
def bankBase : BankKind → Nat
  | .ram => 0x0000
  | .basicRom => 0xA000
  | .characterRom => 0xD000
  | .ioWindow => 0xD000
  | .kernalRom => 0xE000

/-- `len(k)`, `10_state.md` rule R26. -/
def bankLength : BankKind → Nat
  | .ram => 65536
  | .basicRom => 8192
  | .characterRom => 4096
  | .ioWindow => 4096
  | .kernalRom => 8192

/-- The storage of a bank kind, the spec's `Bank[k]`. -/
def State.bank (s : State) (k : BankKind) : Memory :=
  match k with
  | .ram => s.ram
  | .basicRom => s.basic
  | .characterRom => s.char
  | .ioWindow => s.io
  | .kernalRom => s.kernal

/-- The state with another storage in one bank. -/
def State.setBank (s : State) (k : BankKind) (m : Memory) : State :=
  match k with
  | .ram => { s with ram := m }
  | .basicRom => { s with basic := m }
  | .characterRom => { s with char := m }
  | .ioWindow => { s with io := m }
  | .kernalRom => { s with kernal := m }

/-- The byte `Bank[k][i]`. -/
def State.byteAt (s : State) (k : BankKind) (i : Nat) : Byte := (s.bank k).read i

/-- The bank index `a - base(k)`, computed as an integer, when it is in `[0, len(k))` (`30_encoding.md` rule R84). -/
def bankIndex (k : BankKind) (a : Nat) : Option Nat :=
  if bankBase k ≤ a ∧ a - bankBase k < bankLength k then some (a - bankBase k) else none

/-- BANK_READ(k, a), rules R100 and R101. -/
def bankRead (k : BankKind) (a : Nat) (s : State) : Except Fault Byte :=
  match bankIndex k a with
  | none => .error (.bankIndexOutOfRange k a)
  | some i => .ok (s.byteAt k i)

/-- BANK_WRITE(k, a, v), rules R102 and R103. -/
def bankWrite (k : BankKind) (a : Nat) (v : Byte) (s : State) : Except Fault State :=
  if bankReadOnly k then .error (.writeToReadOnly k a)
  else
    match bankIndex k a with
    | none => .error (.bankIndexOutOfRange k a)
    | some i => .ok (s.setBank k ((s.bank k).write i v))

end Sys2Proof.Machine
end

