-- ==== Sys2Proof/Machine/Flags.lean ====
section
/-! DEFINITION. The flag latch (spec `42_latch.md`): DERIVE, every flag computation of the block. -/

namespace Sys2Proof.Machine

/-- The latch address (`00_scope.md` rule R6, `10_state.md` rule R30). -/
def latchAddr : Addr := 0x0001

/-- The latch value of a latch byte, `RAM[0x0001] & 0x07` (rule R120). -/
def latchValue (b : Byte) : Byte := b &&& 0x07

/-- The four boolean expressions of rule R120 over a latch byte. -/
def deriveFlags (b : Byte) : Flags :=
  let latch := latchValue b
  let basicOn := latch &&& 0x03 == 0x03
  { chargenOn := latch &&& 0x04 == 0x00 && latch &&& 0x03 != 0x00
    ioOn := latch &&& 0x04 != 0x00 && latch &&& 0x03 != 0x00
    basicOn := basicOn
    kernalOn := basicOn || latch &&& 0x03 == 0x02 }

/-- The latch byte, read from the RAM bank and not through RESOLVE (rule R120). -/
def State.latchByte (s : State) : Byte := s.ram.read latchAddr.toNat

/-- DERIVE(), rule R120: all four flags from the latch byte. -/
def State.derive (s : State) : State := { s with flags := deriveFlags s.latchByte }

end Sys2Proof.Machine
end

