-- ==== Sys2Proof/Machine/Operands.lean ====
section
/-! DEFINITION. Operands and the quantities computed from them (spec `30_encoding.md` rules R81, R84 and R93,
`20_memory.md` rule R58). -/

namespace Sys2Proof.Machine

/-- The four regions an address selects (rule R81). -/
inductive Region where
  | low
  | basicWindow
  | dWindow
  | kernalWindow
  deriving DecidableEq, Repr

/-- The region by the four high bits `a[15:12]` (rule R81). -/
def regionOf (a : Addr) : Region :=
  match (a.extractLsb' 12 4).toNat with
  | 0xA => .basicWindow
  | 0xB => .basicWindow
  | 0xC => .basicWindow
  | 0xD => .dWindow
  | 0xE => .kernalWindow
  | 0xF => .kernalWindow
  | _ => .low

/-- `w[7:0]`, rule R84. -/
def loByte (w : Word) : Byte := w.extractLsb' 0 8

/-- `w[15:8]`, rule R84. -/
def hiByte (w : Word) : Byte := w.extractLsb' 8 8

/-- Word assembly `(zext_16(hi) << 8) | zext_16(lo)`, rule R84. -/
def wordOf (hi lo : Byte) : Word := (hi.setWidth 16 <<< 8) ||| lo.setWidth 16

/-- The second address of a word operation, `a + 1`, formed only for `a ≤ 0xFFFE`; at 0xFFFF the operation raises
ADDRESS_OUT_OF_RANGE with its address operand (`20_memory.md` rule R58, `44_word_access.md` rule R146, log 13). -/
def secondAddress (a : Addr) : Except Fault Addr :=
  if a = 0xFFFF then .error (.addressOutOfRange a.toNat) else .ok (a + 1)

end Sys2Proof.Machine
end

