-- ==== Sys2Proof/Machine/Ops.lean ====
section
/-! DEFINITION. The shared operations every meaning is built from: the address decoder and the overlap arbiter (spec
`41_decode.md`), the two byte accesses (`43_byte_access.md`), the two pairs of byte accesses of a word operation
(`44_word_access.md` rule R140), raising a fault (`60_exceptions.md` rule R165), and how a request is answered
(rules R88 and R166). There is no return from a fault (rules R166 and R171). -/

namespace Sys2Proof.Machine

/-- RESOLVE(a), rule R110, over natural numbers so that the table's last row can be written (log 16). -/
def resolve (f : Flags) (a : Nat) : Except Fault BankKind :=
  if a ≤ 0x9FFF then .ok .ram
  else if 0xA000 ≤ a ∧ a ≤ 0xCFFF then .ok (if f.basicOn then .basicRom else .ram)
  else if 0xD000 ≤ a ∧ a ≤ 0xDFFF then
    .ok (if f.chargenOn then .characterRom else if f.ioOn then .ioWindow else .ram)
  else if 0xE000 ≤ a ∧ a ≤ 0xFFFF then .ok (if f.kernalOn then .kernalRom else .ram)
  else .error (.addressOutOfRange a)

/-- The bank a write goes to when `k` is the visible bank: RAM at the same address under a ROM, else `k` itself
(rules R113 and R131). -/
def storeBank (k : BankKind) : BankKind := if bankReadOnly k then .ram else k

/-- WRITE_TARGET(a), the overlap arbiter, rule R113. -/
def writeTarget (f : Flags) (a : Nat) : Except Fault BankKind :=
  match resolve f a with
  | .error e => .error e
  | .ok k => .ok (storeBank k)

/-- The one cell a byte write at `a` stores into: its bank and its index there. -/
def storedCell (f : Flags) (a : Addr) : Option (BankKind × Nat) :=
  match writeTarget f a.toNat with
  | .error _ => none
  | .ok k =>
    match bankIndex k a.toNat with
    | none => none
    | some i => some (k, i)

/-- How a part of an operation ends: with a value, or at a `raise`; in both cases with the state as the statements
before it left it (rules R165 and R169). -/
inductive Result (α : Type) where
  | ok (v : α) (s : State)
  | raised (f : Fault) (s : State)
  deriving DecidableEq, Repr

/-- Pseudocode statements run in the order written and stop at a `raise` (`00_scope.md` rule R9). -/
def Result.andThen {α β : Type} (r : Result α) (next : α → State → Result β) : Result β :=
  match r with
  | .ok v s => next v s
  | .raised f s => .raised f s

/-- READ_BYTE's pseudocode, rule R130: MemRead(a, 1). -/
def readByte (a : Addr) (s : State) : Result Byte :=
  match resolve s.flags a.toNat with
  | .error f => .raised f s
  | .ok k =>
    match bankRead k a.toNat s with
    | .error f => .raised f s
    | .ok b => .ok b s

/-- Step 4 of rule R131: DERIVE after a store to 0x0001, and at no other address. -/
def afterStore (a : Addr) (s : State) : State := if a = latchAddr then s.derive else s

/-- WRITE_BYTE's pseudocode, rule R131: MemWrite(a, 1, v), whose value is `visible`. -/
def writeByte (a : Addr) (v : Byte) (s : State) : Result Bool :=
  match resolve s.flags a.toNat with
  | .error f => .raised f s
  | .ok k =>
    match bankWrite (storeBank k) a.toNat v s with
    | .error f => .raised f s
    | .ok t => .ok (!bankReadOnly k) (afterStore a t)

/-- The two byte reads of a word read, `a` first (rules R140, R145 and R146). -/
def readPair (a : Addr) (s : State) : Result (Byte × Byte) :=
  match secondAddress a with
  | .error f => .raised f s
  | .ok a' =>
    (readByte a s).andThen fun b0 s0 =>
      (readByte a' s0).andThen fun b1 s1 => .ok (b0, b1) s1

/-- The two byte writes of a word write, `a` first, both always performed; the value is the AND of the two `visible`
results (rules R140, R143, R145 and R146). -/
def writePair (a : Addr) (b0 b1 : Byte) (s : State) : Result Bool :=
  match secondAddress a with
  | .error f => .raised f s
  | .ok a' =>
    (writeByte a b0 s).andThen fun v0 s0 =>
      (writeByte a' b1 s0).andThen fun v1 s1 => .ok (v0 && v1) s1

/-- The code of a fault, `60_exceptions.md` rule R160. -/
def faultCode : Fault → Nat
  | .writeToReadOnly _ _ => 1
  | .addressOutOfRange _ => 2
  | .bankIndexOutOfRange _ _ => 3

/-- The one response of a request (rule R88). -/
def State.respond (s : State) (r : Response) : State := { s with responses := s.responses ++ [r] }

/-- Fault entry, `raise F(info)`, rule R165: `fault <- F` and the response `Fault(code)`; nothing else changes. -/
def State.raise (s : State) (f : Fault) : State := { s with fault := some f }.respond (.fault (faultCode f))

/-- The end of an operation: its response, or the fault it raised. -/
def Result.finish {α : Type} (r : Result α) (response : α → Response) : State :=
  match r with
  | .ok v s => s.respond (response v)
  | .raised f s => s.raise f

/-- A request is accepted only while `fault = None`; a faulted block answers `Fault(code)` with the recorded code and
changes nothing (rule R166, log 11). -/
def State.accept (s : State) (operation : State → State) : State :=
  match s.fault with
  | some f => s.respond (.fault (faultCode f))
  | none => operation s

end Sys2Proof.Machine
end

