-- ==== Sys2Proof/Machine/ByteAccess.lean ====
section
/-! DEFINITION. The meanings of READ_BYTE and WRITE_BYTE (spec `43_byte_access.md`). -/

namespace Sys2Proof.Machine

/-- READ_BYTE a, rule R130. -/
def execReadByte (a : Addr) (s : State) : Host.Outcome State Fault Refusal :=
  .next (s.accept fun t => (readByte a t).finish .byte)

/-- WRITE_BYTE a, v, rule R131. -/
def execWriteByte (a : Addr) (v : Byte) (s : State) : Host.Outcome State Fault Refusal :=
  .next (s.accept fun t => (writeByte a v t).finish .wrote)

end Sys2Proof.Machine
end

