-- ==== Sys2Proof/Machine/ResetOp.lean ====
section
/-! DEFINITION. The meaning of RESET, and construction (spec `45_reset_op.md`). -/

namespace Sys2Proof.Machine

/-- The two ordinary byte writes of RESET, in order, their results discarded (rule R150). -/
def resetWrites (s : State) : Result Unit :=
  (writeByte 0x0000 0xFF s).andThen fun _ t =>
    (writeByte latchAddr 0x07 t).andThen fun _ u => .ok () u

/-- RESET, rule R150. -/
def execReset (s : State) : Host.Outcome State Fault Refusal :=
  .next (s.accept fun t => (resetWrites t).finish fun _ => .done)

/-- The state CONSTRUCT leaves (rule R153): every bank holds its image verbatim, the flags are `flags_init`, both
cartridge flags are false and there is no fault. -/
def constructed (p : ConstructParams) : State where
  ram := Memory.ofBytes p.ramInit
  basic := Memory.ofBytes p.basicImage
  char := Memory.ofBytes p.charImage
  io := Memory.ofBytes p.ioInit
  kernal := Memory.ofBytes p.kernalImage
  flags := p.flagsInit
  cartA := false
  cartB := false
  fault := none
  requests := []
  responses := []

/-- The image given for a bank kind. -/
def imageFor (p : ConstructParams) (k : BankKind) : List Byte :=
  match k with
  | .ram => p.ramInit
  | .basicRom => p.basicImage
  | .characterRom => p.charImage
  | .ioWindow => p.ioInit
  | .kernalRom => p.kernalImage

/-- The first bank, in the order rule R82 numbers them, whose image has not the bank's length. -/
def wrongImage (p : ConstructParams) : Option BankKind :=
  [BankKind.ram, .basicRom, .characterRom, .ioWindow, .kernalRom].find? fun k =>
    (imageFor p k).length != bankLength k

/-- CONSTRUCT (rules R153 and R154): refused with a wrong length of any image (log 19). Construction is no operation: no
request word asks for it. -/
def construct (p : ConstructParams) : Host.Outcome State Fault Refusal :=
  match wrongImage p with
  | some k => .refused (.imageLength k (imageFor p k).length)
  | none => .next (constructed p)

end Sys2Proof.Machine
end

