-- ==== Sys2Proof/Machine/WordAccess.lean ====
section
/-! DEFINITION. The meanings of the four word operations (spec `44_word_access.md`). -/

namespace Sys2Proof.Machine

/-- READ_WORD_LE a, rule R141: low byte at `a`, high byte at `a + 1`. -/
def execReadWordLe (a : Addr) (s : State) : Host.Outcome State Fault Refusal :=
  .next (s.accept fun t => (readPair a t).finish fun p => .word (wordOf p.2 p.1))

/-- READ_WORD_BE a, rule R142: high byte at `a`, low byte at `a + 1`. -/
def execReadWordBe (a : Addr) (s : State) : Host.Outcome State Fault Refusal :=
  .next (s.accept fun t => (readPair a t).finish fun p => .word (wordOf p.1 p.2))

/-- WRITE_WORD_LE a, w, rule R143: low byte at `a`, high byte at `a + 1`. -/
def execWriteWordLe (a : Addr) (w : Word) (s : State) : Host.Outcome State Fault Refusal :=
  .next (s.accept fun t => (writePair a (loByte w) (hiByte w) t).finish .wrote)

/-- WRITE_WORD_BE a, w, rule R144: high byte at `a`, low byte at `a + 1`. -/
def execWriteWordBe (a : Addr) (w : Word) (s : State) : Host.Outcome State Fault Refusal :=
  .next (s.accept fun t => (writePair a (hiByte w) (loByte w) t).finish .wrote)

end Sys2Proof.Machine
end

