-- ==== Sys2Proof/Machine/Dispatch.lean ====
section
/-! DEFINITION. One arm per operation (spec `30_encoding.md` rule R85). -/

namespace Sys2Proof.Machine

def exec (i : Instr) (s : State) : Host.Outcome State Fault Refusal :=
  match i with
  | .readByte a => Sys2Proof.Machine.execReadByte a s
  | .writeByte a v => Sys2Proof.Machine.execWriteByte a v s
  | .readWordLe a => Sys2Proof.Machine.execReadWordLe a s
  | .readWordBe a => Sys2Proof.Machine.execReadWordBe a s
  | .writeWordLe a w => Sys2Proof.Machine.execWriteWordLe a w s
  | .writeWordBe a w => Sys2Proof.Machine.execWriteWordBe a w s
  | .reset => Sys2Proof.Machine.execReset s

end Sys2Proof.Machine
end

