-- ==== Sys2Proof/Decode.lean ====
section
/-! DEFINITION. Decoding a request word, total, rejecting by name, and the encoder (spec `30_encoding.md` rules R86,
R87, R89 and R90). A request word has no byte order of its own: it is a 40-bit number (rule R86, log 25). -/

namespace Sys2Proof

/-- The fields of a request word, rule R86. -/
def fieldsOf (r : ReqWord) : RequestFields :=
  { op := r.extractLsb' 32 8, addr := r.extractLsb' 16 16, data := r.extractLsb' 0 16 }

/-- `op` in the high bits, then `addr`, then `data`, rule R86. -/
def packFields (f : RequestFields) : ReqWord := (f.op ++ f.addr : BitVec 24) ++ f.data

/-- An operation whose `data` must be zero (rule R87). -/
def requireZeroData (f : RequestFields) (i : Instr) : Except Rejection Instr :=
  if f.data = 0 then .ok i else .error (.dataNotZero f.op f.data)

/-- The opcode map of rule R87 read field by field; every other combination is reserved (rule R89). -/
def decodeFields (f : RequestFields) : Except Rejection Instr :=
  match f.op.toNat with
  | 0x00 => requireZeroData f (.readByte f.addr)
  | 0x01 =>
    if f.data.extractLsb' 8 8 = 0 then .ok (.writeByte f.addr (f.data.extractLsb' 0 8))
    else .error (.dataNotZero f.op f.data)
  | 0x02 => requireZeroData f (.readWordLe f.addr)
  | 0x03 => requireZeroData f (.readWordBe f.addr)
  | 0x04 => .ok (.writeWordLe f.addr f.data)
  | 0x05 => .ok (.writeWordBe f.addr f.data)
  | 0x06 => if f.addr = 0 then requireZeroData f .reset else .error (.addrNotZero f.op f.addr)
  | _ => .error (.reservedOpcode f.op)

/-- The operation a request word asks for, or the name under which the word is reserved. -/
def decode (r : ReqWord) : Except Rejection Instr := decodeFields (fieldsOf r)

/-- The fields of an operation's request word: rule R87's `op`, `addr` and `data`, unused ones zero. -/
def Instr.fields (i : Instr) : RequestFields :=
  match i with
  | .readByte a => { op := 0x00, addr := a, data := 0 }
  | .writeByte a v => { op := 0x01, addr := a, data := v.setWidth 16 }
  | .readWordLe a => { op := 0x02, addr := a, data := 0 }
  | .readWordBe a => { op := 0x03, addr := a, data := 0 }
  | .writeWordLe a w => { op := 0x04, addr := a, data := w }
  | .writeWordBe a w => { op := 0x05, addr := a, data := w }
  | .reset => { op := 0x06, addr := 0, data := 0 }

/-- The request word of an operation (rules R86 and R87). -/
def encode (i : Instr) : ReqWord := packFields i.fields

/-- The pseudo-operation `SET_LATCH v`, which expands to `WRITE_BYTE 0x0001, v` (rule R92). -/
def setLatch (v : Byte) : Instr := .writeByte 0x0001 v

/-- The decoder on a word numbered as `spec/opcode_table.json` numbers its bits: one 40-bit word, bit 0 the least
significant, so the number is the request word itself. A number over 40 bits is no request word (log 21). -/
def decodeTableWord (_nbits w : Nat) : Option Instr :=
  if w < 2 ^ 40 then
    match decode (BitVec.ofNat 40 w) with
    | .ok i => some i
    | .error _ => none
  else none

end Sys2Proof
end

