-- ==== Sys2Proof/Machine/Requests.lean ====
section
/-! DEFINITION. The requester's side of the interface: issuing a program (spec `30_encoding.md` rule R91) and taking
the next request word. The block fetches nothing (`10_state.md` rule R34). -/

namespace Sys2Proof.Machine

/-- The requester puts more request words after those still pending (log 1). -/
def State.issue (s : State) (words : List ReqWord) : State := { s with requests := s.requests ++ words }

/-- A program, "a finite list of operations, issued in order by the one requester" (rule R91), put before the block. -/
def State.issueProgram (s : State) (program : List Instr) : State := s.issue (program.map encode)

/-- The next request word and the state without it; none when nothing is pending. -/
def State.takeRequest (s : State) : Option (ReqWord × State) :=
  match s.requests with
  | [] => none
  | w :: rest => some (w, { s with requests := rest })

/-- The state with one request word, numbered as the opcode table numbers it, in front of the pending ones (log 21). -/
def State.pushRequest (s : State) (w : Nat) : State := { s with requests := BitVec.ofNat 40 w :: s.requests }

end Sys2Proof.Machine
end

