-- ==== Sys2Proof/Machine/Step.lean ====
section
/-! DEFINITION. One step: the next request of the one requester, decoded and executed whole (spec `20_memory.md` rule
R59, `70_reset_and_hazards.md` rule R191). -/

namespace Sys2Proof.Machine

/-- One step. With no request pending the block stays as it is (rule R192, log 3); a reserved request word is refused
by name (`30_encoding.md` rule R89, log 9). -/
def step (s : State) : Host.Outcome State Fault Refusal :=
  match s.takeRequest with
  | none => .next s
  | some (w, t) =>
    match decode w with
    | .error why => .refused (.reservedRequest why)
    | .ok i => exec i t

/-- `s` with the request word `w` issued next (log 21). -/
def State.withFetchWord (s : State) (_nbits w : Nat) : State := s.pushRequest w

end Sys2Proof.Machine
end

