-- ==== Sys2Proof/Machine/Run.lean ====
section
/-! DEFINITION. A run of a program and where it ends (spec `70_reset_and_hazards.md` rule R192). The requester ends a
run, not the block: `step` goes on answering for as long as requests are issued (rule R166, log 26). -/

namespace Sys2Proof.Machine

/-- The three ways a run ends, rule R192, each with the state it ends in. -/
inductive RunEnd where
  /-- The last operation has produced its response, none of the run's being `Fault(code)`. -/
  | completed (s : State)
  /-- An operation's response was `Fault(code)`; the state is the one right after that response. -/
  | faulted (s : State)
  /-- A request was refused; the state is the one before it. -/
  | refused (why : Refusal) (s : State)
  deriving DecidableEq, Repr

/-- The state a run ends in. -/
def RunEnd.state : RunEnd → State
  | .completed s => s
  | .faulted s => s
  | .refused _ s => s

/-- The response is `Fault(code)` (rule R88). -/
def isFaultResponse : Response → Bool
  | .fault _ => true
  | _ => false

/-- The newest response is `Fault(code)`. -/
def State.answeredFault (s : State) : Bool := s.responses.getLast?.any isFaultResponse

/-- The run of the next `n` requests, rule R192: it ends after the last of them, at the first response `Fault(code)`,
or at the first refused request. -/
def State.runFor : Nat → State → RunEnd
  | 0, s => .completed s
  | n + 1, s =>
    match step s with
    | .next t => if t.answeredFault then .faulted t else State.runFor n t
    | .fault _ => .faulted s
    | .refused why => .refused why s

/-- The run of everything pending. -/
def State.run (s : State) : RunEnd := s.runFor s.requests.length

/-- The run of a program issued to `s` (rule R91). -/
def State.runProgram (s : State) (program : List Instr) : RunEnd := (s.issueProgram program).run

/-- The observable result of a run, rule R192: its responses, and the end state's `RAM`, `IO`, flags and `fault`. -/
structure RunResult where
  responses : List Response
  ram : Memory
  io : Memory
  flags : Flags
  fault : Option Fault
  deriving DecidableEq, Repr

/-- The observable result of the run of everything pending in `s`: the responses given before it are not its own. -/
def State.runResult (s : State) : RunResult :=
  let t := s.run.state
  { responses := t.responses.drop s.responses.length, ram := t.ram, io := t.io, flags := t.flags, fault := t.fault }

end Sys2Proof.Machine
end

