-- ==== Sys2Proof/Safety.lean ====
section
/-! DEFINITION. What counts as a safe run (spec `70_reset_and_hazards.md` rule R192, `60_exceptions.md` rule R166), and
the invariants of the state that claims are stated with. -/

namespace Sys2Proof.Machine

/-- The canonical form of all five banks, each within its length (`10_state.md` rule R26). -/
def State.banksWf (s : State) : Bool :=
  [BankKind.ram, .basicRom, .characterRom, .ioWindow, .kernalRom].all fun k => (s.bank k).wf (bankLength k)

/-- The two cartridge flags are permanently false (`10_state.md` rule R29). -/
def State.cartsInert (s : State) : Bool := !s.cartA && !s.cartB

/-- The state is one a construction can give: canonical banks and inert cartridge flags. -/
def State.wf (s : State) : Bool := s.banksWf && s.cartsInert

/-- The flag invariant of `10_state.md` rule R28: the four flags are those DERIVE gives for the latch byte. -/
def State.flagsConsistent (s : State) : Bool := s.flags == deriveFlags s.latchByte

/-- The states the spec describes after the first RESET (`10_state.md` rule R38, *running* or *faulted*). -/
def State.Inv (s : State) : Prop := s.wf = true ∧ s.flagsConsistent = true

/-- A run's final state: every operation has produced its response and `fault = None` (rule R192). -/
def State.final (s : State) : Bool := s.requests.isEmpty && s.fault.isNone

/-- A run is final, "successful", only when it ended after its last operation and with `fault = None` (rule R192). -/
def RunEnd.final : RunEnd → Bool
  | .completed s => s.final
  | .faulted _ => false
  | .refused _ _ => false

/-- A program runs safely from a state when its run there ends after its last operation, in a final state. -/
def SafeRun (s : State) (program : List Instr) : Prop := ∃ t, s.runProgram program = .completed t ∧ t.final = true

end Sys2Proof.Machine
end

