-- ==== Sys2Proof/WellFormed.lean ====
section
/-! DEFINITION. Which request words are not reserved, as the opcode map of spec `30_encoding.md` rule R87 says it:
one row of `match` and `mask` per operation. The decoder (`Decode.lean`) is written from the fields instead; that
the two agree is a statement. An `Instr` has no check of its own: its operands have exactly the widths of rule R83,
so every term of the type is an operation with legal operands (log 20). -/

namespace Sys2Proof

/-- One row of the opcode map of rule R87. -/
structure OpcodeRow where
  mnemonic : String
  mask     : ReqWord
  pattern  : ReqWord
  deriving DecidableEq, Repr

/-- The opcode map of rule R87. -/
def opcodeMap : List OpcodeRow := [
  { mnemonic := "READ_BYTE",     mask := 0xFF0000FFFF#40, pattern := 0x0000000000#40 },
  { mnemonic := "WRITE_BYTE",    mask := 0xFF0000FF00#40, pattern := 0x0100000000#40 },
  { mnemonic := "READ_WORD_LE",  mask := 0xFF0000FFFF#40, pattern := 0x0200000000#40 },
  { mnemonic := "READ_WORD_BE",  mask := 0xFF0000FFFF#40, pattern := 0x0300000000#40 },
  { mnemonic := "WRITE_WORD_LE", mask := 0xFF00000000#40, pattern := 0x0400000000#40 },
  { mnemonic := "WRITE_WORD_BE", mask := 0xFF00000000#40, pattern := 0x0500000000#40 },
  { mnemonic := "RESET",         mask := 0xFFFFFFFFFF#40, pattern := 0x0600000000#40 }]

/-- A request `r` selects the row when `r & mask = match` (rule R87). -/
def OpcodeRow.selects (row : OpcodeRow) (r : ReqWord) : Bool := r &&& row.mask == row.pattern

/-- A request word is well formed when some row selects it; every other word is reserved (rule R89). -/
def ReqWord.wellFormed (r : ReqWord) : Bool := opcodeMap.any (·.selects r)

end Sys2Proof
end

