-- ==== Sys2Proof/Certificates/Slice0/Obligations.lean ====
section
/-! DEFINITION. The statements for the provers, in the terms of the spec's rules, and the few words they are stated
with. A statement over states that hold a fault or inconsistent flags means those states too. -/

namespace Sys2Proof.Claims

open Sys2Proof.Machine

/-- `s` with one more response and nothing else changed. -/
def answered (s : State) (r : Response) : State := { s with responses := s.responses ++ [r] }

/-- `s` after fault entry with fault `f` of code `code`: the record, the response and nothing else changed. -/
def faulted (s : State) (f : Fault) (code : Nat) : State :=
  { s with fault := some f, responses := s.responses ++ [.fault code] }

/-- The operation's mnemonic as the opcode table spells it. -/
def mnemonic : Instr → String
  | .readByte _ => "READ_BYTE"
  | .writeByte _ _ => "WRITE_BYTE"
  | .readWordLe _ => "READ_WORD_LE"
  | .readWordBe _ => "READ_WORD_BE"
  | .writeWordLe _ _ => "WRITE_WORD_LE"
  | .writeWordBe _ _ => "WRITE_WORD_BE"
  | .reset => "RESET"

/-- The three operations that read. -/
def isRead : Instr → Bool
  | .readByte _ => true
  | .readWordLe _ => true
  | .readWordBe _ => true
  | _ => false

/-- `w[7:0]`. -/
def lo (w : Word) : Byte := w.setWidth 8

/-- `w[15:8]`. -/
def hi (w : Word) : Byte := (w >>> 8).setWidth 8

/-- The fault an operation raises when it is accepted under the flags `f`, by the last column of `60_exceptions.md`
rule R160's table, with the information rules R162 and R163 record. -/
def expectedFault (f : Flags) : Instr → Option Fault
  | .readByte a => readFault a
  | .readWordLe a => wordReadFault a
  | .readWordBe a => wordReadFault a
  | .writeWordLe a _ => topFault a
  | .writeWordBe a _ => topFault a
  | .writeByte _ _ => none
  | .reset => none
where
  readFault (a : Addr) : Option Fault :=
    if f.basicOn = true ∧ 0xC000 ≤ a.toNat ∧ a.toNat ≤ 0xCFFF then
      some (.bankIndexOutOfRange .basicRom a.toNat) else none
  wordReadFault (a : Addr) : Option Fault :=
    if a.toNat = 0xFFFF then some (.addressOutOfRange 0xFFFF)
    else if f.basicOn = true ∧ a.toNat = 0xBFFF then some (.bankIndexOutOfRange .basicRom 0xC000)
    else readFault a
  topFault (a : Addr) : Option Fault :=
    if a.toNat = 0xFFFF then some (.addressOutOfRange 0xFFFF) else none

/-- The form of the response rule R88 gives an operation, or a fault. -/
def answers : Instr → Response → Prop
  | .readByte _, .byte _ => True
  | .readWordLe _, .word _ => True
  | .readWordBe _, .word _ => True
  | .writeByte _ _, .wrote _ => True
  | .writeWordLe _ _, .wrote _ => True
  | .writeWordBe _ _, .wrote _ => True
  | .reset, .done => True
  | _, .fault _ => True
  | _, _ => False

/-- An operation that cannot fault whatever the flags are: no word operation at 0xFFFF, and no read that touches
0xC000 to 0xCFFF. -/
def faultFree : Instr → Prop
  | .readByte a => a.toNat < 0xC000 ∨ 0xCFFF < a.toNat
  | .readWordLe a => a.toNat ≠ 0xFFFF ∧ (a.toNat < 0xBFFF ∨ 0xCFFF < a.toNat)
  | .readWordBe a => a.toNat ≠ 0xFFFF ∧ (a.toNat < 0xBFFF ∨ 0xCFFF < a.toNat)
  | .writeWordLe a _ => a.toNat ≠ 0xFFFF
  | .writeWordBe a _ => a.toNat ≠ 0xFFFF
  | .writeByte _ _ => True
  | .reset => True

/-- The flags of each latch value, the eight rows of `42_latch.md` rule R121. -/
def flagRow (latch : Nat) : Flags :=
  match latch with
  | 0 => { chargenOn := false, ioOn := false, basicOn := false, kernalOn := false }
  | 1 => { chargenOn := true, ioOn := false, basicOn := false, kernalOn := false }
  | 2 => { chargenOn := true, ioOn := false, basicOn := false, kernalOn := true }
  | 3 => { chargenOn := true, ioOn := false, basicOn := true, kernalOn := true }
  | 4 => { chargenOn := false, ioOn := false, basicOn := false, kernalOn := false }
  | 5 => { chargenOn := false, ioOn := true, basicOn := false, kernalOn := false }
  | 6 => { chargenOn := false, ioOn := true, basicOn := false, kernalOn := true }
  | _ => { chargenOn := false, ioOn := true, basicOn := true, kernalOn := true }

/-- The visible banks of the BASIC, D and KERNAL windows by latch value, the rows of `41_decode.md` rule R116. -/
def windowRow (latch : Nat) : BankKind × BankKind × BankKind :=
  match latch with
  | 0 => (.ram, .ram, .ram)
  | 1 => (.ram, .characterRom, .ram)
  | 2 => (.ram, .characterRom, .kernalRom)
  | 3 => (.basicRom, .characterRom, .kernalRom)
  | 4 => (.ram, .ram, .ram)
  | 5 => (.ram, .ioWindow, .ram)
  | 6 => (.ram, .ioWindow, .kernalRom)
  | _ => (.basicRom, .ioWindow, .kernalRom)

/-- The four images, and the RAM and I/O contents, have the lengths of their banks (`10_state.md` rule R26). -/
def rightLengths (p : ConstructParams) : Prop :=
  p.basicImage.length = 8192 ∧ p.charImage.length = 4096 ∧ p.kernalImage.length = 8192 ∧
    p.ramInit.length = 65536 ∧ p.ioInit.length = 4096

/-- Construction parameters of zeros, with any flags. -/
def zeroFilled (f : Flags) : ConstructParams where
  basicImage := List.replicate 8192 0
  charImage := List.replicate 4096 0
  kernalImage := List.replicate 8192 0
  ramInit := List.replicate 65536 0
  ioInit := List.replicate 4096 0
  flagsInit := f

/-- Everything but the RAM and I/O bytes, the flags and the responses is as in `s`. -/
def sameElsewhere (s t : State) : Prop :=
  t.basic = s.basic ∧ t.char = s.char ∧ t.kernal = s.kernal ∧ t.cartA = s.cartA ∧ t.cartB = s.cartB ∧
    t.requests = s.requests

end Sys2Proof.Claims

open Sys2Proof Sys2Proof.Machine Sys2Proof.Claims

/-! ## The request word -/

/-- `30_encoding.md`, the request format and the opcode map: the decoder reads back every encoded operation, with
every operand at every value. -/
def Obligations.EncodedOperationsDecodeToThemselves : Prop :=
  ∀ i : Instr, decode (encode i) = .ok i

/-- `30_encoding.md`, the request format and the opcode map: a word has at most one meaning, and no bit of it is
dropped. -/
def Obligations.DecodedWordsEncodeToThemselves : Prop :=
  ∀ (w : ReqWord) (i : Instr), decode w = .ok i → encode i = w

/-- `30_encoding.md`, the opcode map and the reserved words: the decoder accepts exactly the words some row of the
map selects by its mask. -/
def Obligations.DecoderAcceptsExactlyTheOpcodeMap : Prop :=
  ∀ w : ReqWord, (∃ i, decode w = .ok i) ↔ w.wellFormed = true

/-- `30_encoding.md`, the opcode map: "The seven rows are disjoint", and an operation's word is selected by its own
row. -/
def Obligations.EachOperationIsSelectedByItsOwnRow : Prop :=
  (∀ i : Instr, (opcodeMap.filter (·.selects (encode i))).map OpcodeRow.mnemonic = [mnemonic i]) ∧
  ∀ w : ReqWord, (opcodeMap.filter (·.selects w)).length ≤ 1

/-- The words of `95_test_vectors.md` B7: seven that decode and four that are reserved. -/
def Obligations.ListedRequestWordsDecode : Prop :=
  decode 0x00E0000000#40 = .ok (.readByte 0xE000) ∧
  decode 0x0100010005#40 = .ok (.writeByte 0x0001 0x05) ∧
  decode 0x0210000000#40 = .ok (.readWordLe 0x1000) ∧
  decode 0x03FFFE0000#40 = .ok (.readWordBe 0xFFFE) ∧
  decode 0x041000BEEF#40 = .ok (.writeWordLe 0x1000 0xBEEF) ∧
  decode 0x051002BEEF#40 = .ok (.writeWordBe 0x1002 0xBEEF) ∧
  decode 0x0600000000#40 = .ok .reset ∧
  decode 0x0700000000#40 = .error (.reservedOpcode 0x07) ∧
  decode 0x00E0000001#40 = .error (.dataNotZero 0x00 0x0001) ∧
  decode 0x0100010105#40 = .error (.dataNotZero 0x01 0x0105) ∧
  decode 0x0600010000#40 = .error (.addrNotZero 0x06 0x0001)

/-! ## The step -/

/-- A step runs the operation the next request word decodes to, on the state without that word. -/
def Obligations.StepRunsTheDecodedOperation : Prop :=
  ∀ (s : State) (w : ReqWord) (rest : List ReqWord) (i : Instr),
    s.requests = w :: rest → decode w = .ok i → step s = exec i { s with requests := rest }

/-- A word put where the block takes its next request is what the next step runs, on the state as it was (log 21). -/
def Obligations.FetchedTableWordRuns : Prop :=
  ∀ (s : State) (w : Nat) (i : Instr), decodeTableWord 40 w = some i → step (s.withFetchWord 40 w) = exec i s

/-- A step answers a next state on every word that is not reserved, refuses a reserved one by name (spec decision D3),
stays as it is with nothing pending (log 3), and never stops with a fault (log 8). -/
def Obligations.StepRefusesExactlyReservedWords : Prop :=
  ∀ s : State,
    (s.requests = [] → step s = .next s) ∧
    (∀ w rest, s.requests = w :: rest → w.wellFormed = true → ∃ t, step s = .next t) ∧
    (∀ w rest, s.requests = w :: rest → w.wellFormed = false →
      ∃ why, decode w = .error why ∧ step s = .refused (.reservedRequest why)) ∧
    ∀ f, step s ≠ .fault f

/-! ## Bank storage, address decoder, overlap arbiter -/

/-- A store is read back at its own index and at no other, whatever the storage holds. -/
def Obligations.StoredByteReadsBackAtItsIndexOnly : Prop :=
  ∀ (m : Memory) (i j : Nat) (v : Byte), (m.write i v).read j = if j = i then v else m.read j

/-- `40_bank.md` rule R100, for each of the five banks with its base and length: the byte at `address - base_offset`,
else a raise. -/
def Obligations.BankReadReturnsTheStoredByte : Prop :=
  ∀ (s : State) (a : Nat),
    (bankRead .ram a s = if a < 0x10000 then .ok (s.ram.read a) else .error (.bankIndexOutOfRange .ram a)) ∧
    (bankRead .basicRom a s = if 0xA000 ≤ a ∧ a < 0xC000 then .ok (s.basic.read (a - 0xA000))
      else .error (.bankIndexOutOfRange .basicRom a)) ∧
    (bankRead .characterRom a s = if 0xD000 ≤ a ∧ a < 0xE000 then .ok (s.char.read (a - 0xD000))
      else .error (.bankIndexOutOfRange .characterRom a)) ∧
    (bankRead .ioWindow a s = if 0xD000 ≤ a ∧ a < 0xE000 then .ok (s.io.read (a - 0xD000))
      else .error (.bankIndexOutOfRange .ioWindow a)) ∧
    (bankRead .kernalRom a s = if 0xE000 ≤ a ∧ a < 0x10000 then .ok (s.kernal.read (a - 0xE000))
      else .error (.bankIndexOutOfRange .kernalRom a))

/-- `40_bank.md` rules R102 and R103: RAM and IO-WINDOW store the byte, a ROM kind raises WRITE_TO_READ_ONLY. Two
clauses are inferences the spec marks as its own or draws from another rule: the arbiter's bank never raises for a
16-bit address, and no operation leaves WRITE_TO_READ_ONLY. -/
def Obligations.BankWriteStoresOrRaises : Prop :=
  ∀ (s : State) (a : Nat) (v : Byte),
    (bankWrite .ram a v s = if a < 0x10000 then .ok { s with ram := s.ram.write a v }
      else .error (.bankIndexOutOfRange .ram a)) ∧
    (bankWrite .ioWindow a v s = if 0xD000 ≤ a ∧ a < 0xE000 then .ok { s with io := s.io.write (a - 0xD000) v }
      else .error (.bankIndexOutOfRange .ioWindow a)) ∧
    bankWrite .basicRom a v s = .error (.writeToReadOnly .basicRom a) ∧
    bankWrite .characterRom a v s = .error (.writeToReadOnly .characterRom a) ∧
    bankWrite .kernalRom a v s = .error (.writeToReadOnly .kernalRom a) ∧
    (∀ k, a < 0x10000 → writeTarget s.flags a = .ok k → ∃ t, bankWrite k a v s = .ok t) ∧
    (∀ (i : Instr) (t : State) (k : BankKind) (b : Nat), s.fault = none → exec i s = .next t →
      t.fault ≠ some (.writeToReadOnly k b))

/-- `41_decode.md` rule R110: the decoding table, row by row, its defensive last row included. -/
def Obligations.ResolveFollowsTheDecodingTable : Prop :=
  ∀ (f : Flags) (a : Nat),
    (a ≤ 0x9FFF → resolve f a = .ok .ram) ∧
    (0xA000 ≤ a → a ≤ 0xCFFF → f.basicOn = true → resolve f a = .ok .basicRom) ∧
    (0xA000 ≤ a → a ≤ 0xCFFF → f.basicOn = false → resolve f a = .ok .ram) ∧
    (0xD000 ≤ a → a ≤ 0xDFFF → f.chargenOn = true → resolve f a = .ok .characterRom) ∧
    (0xD000 ≤ a → a ≤ 0xDFFF → f.chargenOn = false → f.ioOn = true → resolve f a = .ok .ioWindow) ∧
    (0xD000 ≤ a → a ≤ 0xDFFF → f.chargenOn = false → f.ioOn = false → resolve f a = .ok .ram) ∧
    (0xE000 ≤ a → a ≤ 0xFFFF → f.kernalOn = true → resolve f a = .ok .kernalRom) ∧
    (0xE000 ≤ a → a ≤ 0xFFFF → f.kernalOn = false → resolve f a = .ok .ram) ∧
    (0xFFFF < a → resolve f a = .error (.addressOutOfRange a))

/-- `41_decode.md` rule R113: the arbiter sends a ROM's write to RAM, keeps any other bank, and raises only what
RESOLVE raises; a redirected byte goes to the RAM cell of the same address. -/
def Obligations.WriteTargetRedirectsRomsToRam : Prop :=
  ∀ (f : Flags) (a : Nat),
    (∀ k, resolve f a = .ok k → (k = .basicRom ∨ k = .characterRom ∨ k = .kernalRom) → writeTarget f a = .ok .ram) ∧
    (∀ k, resolve f a = .ok k → (k = .ram ∨ k = .ioWindow) → writeTarget f a = .ok k) ∧
    (∀ e, resolve f a = .error e → writeTarget f a = .error e) ∧
    (∀ (x : Addr) (k : BankKind), resolve f x.toNat = .ok k → (k = .basicRom ∨ k = .characterRom ∨ k = .kernalRom) →
      storedCell f x = some (.ram, x.toNat))

/-- `41_decode.md`, an inference the spec marks as its own: a write's bank is RAM, or the I/O window exactly in its
range with `chargen_on` false and `io_on` true. -/
def Obligations.WriteTargetIsRamOrIoWindow : Prop :=
  ∀ (f : Flags) (a : Addr),
    (writeTarget f a.toNat = .ok .ram ∨ writeTarget f a.toNat = .ok .ioWindow) ∧
    (writeTarget f a.toNat = .ok .ioWindow ↔
      0xD000 ≤ a.toNat ∧ a.toNat ≤ 0xDFFF ∧ f.chargenOn = false ∧ f.ioOn = true)

/-- `30_encoding.md`, an inference the spec marks as its own: the four high bits of the address select the region, and
the region with the flags selects the bank. -/
def Obligations.RegionFieldSelectsTheBank : Prop :=
  ∀ (f : Flags) (a : Addr),
    (regionOf a = .low → resolve f a.toNat = .ok .ram) ∧
    (regionOf a = .basicWindow → resolve f a.toNat = .ok (if f.basicOn then .basicRom else .ram)) ∧
    (regionOf a = .dWindow → resolve f a.toNat =
      .ok (if f.chargenOn then .characterRom else if f.ioOn then .ioWindow else .ram)) ∧
    (regionOf a = .kernalWindow → resolve f a.toNat = .ok (if f.kernalOn then .kernalRom else .ram)) ∧
    ∀ b : Addr, a.extractLsb' 12 4 = b.extractLsb' 12 4 → resolve f a.toNat = resolve f b.toNat

/-- `41_decode.md`, the table the spec derives: the visible bank of each window by latch value, wherever the flags are
consistent with the latch byte. -/
def Obligations.VisibleBankByLatchValue : Prop :=
  ∀ (s : State) (a : Addr), s.flagsConsistent = true →
    resolve s.flags a.toNat =
      .ok (if a.toNat ≤ 0x9FFF then .ram
        else if a.toNat ≤ 0xCFFF then (windowRow ((s.ram.read 1).toNat % 8)).1
        else if a.toNat ≤ 0xDFFF then (windowRow ((s.ram.read 1).toNat % 8)).2.1
        else (windowRow ((s.ram.read 1).toNat % 8)).2.2)

/-- `30_encoding.md`, an inference the spec marks as its own: the index of the visible bank leaves its storage only for
BASIC-ROM at 0xC000 to 0xCFFF. -/
def Obligations.BankIndexLeavesStorageOnlyPastBasic : Prop :=
  ∀ (f : Flags) (a : Addr) (k : BankKind), resolve f a.toNat = .ok k →
    (bankIndex k a.toNat = none ↔ k = .basicRom ∧ 0xC000 ≤ a.toNat ∧ a.toNat ≤ 0xCFFF) ∧
    (∀ i, bankIndex k a.toNat = some i → i + bankBase k = a.toNat ∧ i < bankLength k)

/-! ## The flag latch -/

/-- `42_latch.md` rule R120: DERIVE writes all four flags from the three low bits of `RAM[0x0001]` and nothing else;
`kernal_on` uses the new `basic_on`; it runs after a write to 0x0001. -/
def Obligations.DeriveComputesTheFourExpressions : Prop :=
  (∀ (s : State) (v : Byte), s.fault = none →
    exec (.writeByte 0x0001 v) s = .next (answered { s with ram := s.ram.write 1 v }.derive (.wrote true))) ∧
  ∀ s : State, ∃ chargenOn ioOn basicOn kernalOn : Bool,
    s.derive = { s with flags := { chargenOn, ioOn, basicOn, kernalOn } } ∧
    (chargenOn = true ↔ ((s.ram.read 1).getLsbD 2 = false ∧ (s.ram.read 1).toNat % 4 ≠ 0)) ∧
    (ioOn = true ↔ ((s.ram.read 1).getLsbD 2 = true ∧ (s.ram.read 1).toNat % 4 ≠ 0)) ∧
    (basicOn = true ↔ (s.ram.read 1).toNat % 4 = 3) ∧
    (kernalOn = true ↔ (basicOn = true ∨ (s.ram.read 1).toNat % 4 = 2))

/-- `42_latch.md`, the truth table the spec derives: SET_LATCH v leaves the flags of row `v & 7`, from every running
state and for all 256 bytes. -/
def Obligations.LatchWriteSetsTheFlagRow : Prop :=
  ∀ (s : State) (v : Byte), s.fault = none →
    ∃ t, exec (setLatch v) s = .next t ∧ t.flags = flagRow (v.toNat % 8) ∧ t.ram.read 1 = v

/-- `42_latch.md`, properties the spec derives: exclusivity, implication, and the number of reachable flag sets. -/
def Obligations.DerivedFlagsExcludeEachOther : Prop :=
  (∀ b : Byte,
    ¬ ((deriveFlags b).chargenOn = true ∧ (deriveFlags b).ioOn = true) ∧
    (((deriveFlags b).chargenOn = true ∨ (deriveFlags b).ioOn = true) ↔ b.toNat % 4 ≠ 0) ∧
    ((deriveFlags b).basicOn = true → (deriveFlags b).kernalOn = true) ∧
    (deriveFlags b).kernalOn = b.getLsbD 1 ∧
    (deriveFlags b).basicOn = (b.getLsbD 1 && b.getLsbD 0)) ∧
  (((List.range 8).map fun n => deriveFlags (BitVec.ofNat 8 n)).dedup).length = 7

/-- `10_state.md` and `42_latch.md`: an operation changes a flag only by storing the latch byte. -/
def Obligations.FlagsChangeOnlyByStoringTheLatch : Prop :=
  ∀ (i : Instr) (s t : State), exec i s = .next t → t.flags ≠ s.flags →
    s.fault = none ∧ t.flags = deriveFlags (t.ram.read 1) ∧
    (i = .reset ∨ (∃ v, i = .writeByte 0x0001 v) ∨
      ∃ w, i = .writeWordLe 0x0000 w ∨ i = .writeWordLe 0x0001 w ∨ i = .writeWordBe 0x0000 w ∨ i = .writeWordBe 0x0001 w)

/-- `42_latch.md`, immediacy, with the bank names of `90_conflicts.md` C1: the read after a latch write already sees
the D window of the new latch value. -/
def Obligations.LatchWriteActsOnTheNextRead : Prop :=
  ∀ (s : State) (v : Byte) (a : Addr), s.fault = none → 0xD000 ≤ a.toNat → a.toNat ≤ 0xDFFF →
    ∃ t, exec (setLatch v) s = .next t ∧
      exec (.readByte a) t = .next (answered t (.byte
        (if v.toNat % 4 = 0 then s.ram.read a.toNat
          else if v.toNat % 8 < 4 then s.char.read (a.toNat - 0xD000)
          else s.io.read (a.toNat - 0xD000))))

/-! ## Byte access -/

/-- `43_byte_access.md` with the read targets of `20_memory.md`: READ_BYTE answers the byte of the visible bank and
changes nothing, at every address and under all flags, but for 0xC000 to 0xCFFF while `basic_on`. -/
def Obligations.ReadByteAnswersTheVisibleByte : Prop :=
  ∀ (s : State) (a : Addr), s.fault = none →
    (a.toNat ≤ 0x9FFF → exec (.readByte a) s = .next (answered s (.byte (s.ram.read a.toNat)))) ∧
    (0xA000 ≤ a.toNat → a.toNat ≤ 0xCFFF → s.flags.basicOn = false →
      exec (.readByte a) s = .next (answered s (.byte (s.ram.read a.toNat)))) ∧
    (0xA000 ≤ a.toNat → a.toNat ≤ 0xBFFF → s.flags.basicOn = true →
      exec (.readByte a) s = .next (answered s (.byte (s.basic.read (a.toNat - 0xA000))))) ∧
    (0xD000 ≤ a.toNat → a.toNat ≤ 0xDFFF → s.flags.chargenOn = true →
      exec (.readByte a) s = .next (answered s (.byte (s.char.read (a.toNat - 0xD000))))) ∧
    (0xD000 ≤ a.toNat → a.toNat ≤ 0xDFFF → s.flags.chargenOn = false → s.flags.ioOn = true →
      exec (.readByte a) s = .next (answered s (.byte (s.io.read (a.toNat - 0xD000))))) ∧
    (0xD000 ≤ a.toNat → a.toNat ≤ 0xDFFF → s.flags.chargenOn = false → s.flags.ioOn = false →
      exec (.readByte a) s = .next (answered s (.byte (s.ram.read a.toNat)))) ∧
    (0xE000 ≤ a.toNat → s.flags.kernalOn = true →
      exec (.readByte a) s = .next (answered s (.byte (s.kernal.read (a.toNat - 0xE000))))) ∧
    (0xE000 ≤ a.toNat → s.flags.kernalOn = false →
      exec (.readByte a) s = .next (answered s (.byte (s.ram.read a.toNat))))

/-- Spec decision D5 (log 12): a byte read of 0xC000 to 0xCFFF while `basic_on`, and a word read that touches one of
those addresses, raise BANK_INDEX_OUT_OF_RANGE with the bank and the address of the offending byte, and change nothing
else. -/
def Obligations.ReadsPastTheBasicRomFault : Prop :=
  ∀ (s : State) (a : Addr), s.fault = none → s.flags.basicOn = true →
    (0xC000 ≤ a.toNat → a.toNat ≤ 0xCFFF →
      exec (.readByte a) s = .next (faulted s (.bankIndexOutOfRange .basicRom a.toNat) 3) ∧
      exec (.readWordLe a) s = .next (faulted s (.bankIndexOutOfRange .basicRom a.toNat) 3) ∧
      exec (.readWordBe a) s = .next (faulted s (.bankIndexOutOfRange .basicRom a.toNat) 3)) ∧
    (a.toNat = 0xBFFF →
      exec (.readWordLe a) s = .next (faulted s (.bankIndexOutOfRange .basicRom 0xC000) 3) ∧
      exec (.readWordBe a) s = .next (faulted s (.bankIndexOutOfRange .basicRom 0xC000) 3))

/-- `43_byte_access.md` rule R131: WRITE_BYTE at every address under all flags. Under a ROM the byte goes to RAM at the
same address and the answer is false; in RAM or the I/O window it is stored there and the answer is true; at 0x0001 the
flags are derived from the stored byte; nothing else changes and nothing raises. The first clause is its encoding. -/
def Obligations.WriteByteStoresAndReportsVisibility : Prop :=
  (∀ (a : Addr) (v : Byte), encode (.writeByte a v) = 0x01#8 ++ a ++ 0x00#8 ++ v) ∧
  ∀ (s : State) (a : Addr) (v : Byte), s.fault = none →
    (a.toNat = 1 → exec (.writeByte a v) s =
      .next { s with ram := s.ram.write 1 v, flags := deriveFlags v, responses := s.responses ++ [.wrote true] }) ∧
    (a.toNat ≠ 1 → resolve s.flags a.toNat = .ok .ram → exec (.writeByte a v) s =
      .next { s with ram := s.ram.write a.toNat v, responses := s.responses ++ [.wrote true] }) ∧
    (resolve s.flags a.toNat = .ok .ioWindow → exec (.writeByte a v) s =
      .next { s with io := s.io.write (a.toNat - 0xD000) v, responses := s.responses ++ [.wrote true] }) ∧
    (∀ k, resolve s.flags a.toNat = .ok k → (k = .basicRom ∨ k = .characterRom ∨ k = .kernalRom) →
      exec (.writeByte a v) s =
        .next { s with ram := s.ram.write a.toNat v, responses := s.responses ++ [.wrote false] }) ∧
    (∀ e, resolve s.flags a.toNat ≠ .error e)

/-- `43_byte_access.md`, the meaning of `visible` the spec derives: after true the same address reads the byte, after
false the byte is in RAM and the address reads, or faults, as before. -/
def Obligations.VisibleWriteReadsBack : Prop :=
  ∀ (s t : State) (a : Addr) (v : Byte), s.fault = none → exec (.writeByte a v) s = .next t →
    (t.responses = s.responses ++ [.wrote true] → exec (.readByte a) t = .next (answered t (.byte v))) ∧
    (t.responses = s.responses ++ [.wrote false] →
      t.ram.read a.toNat = v ∧
      ∃ r x, exec (.readByte a) s = .next { s with fault := x, responses := s.responses ++ [r] } ∧
        exec (.readByte a) t = .next { t with fault := x, responses := t.responses ++ [r] })

/-- `43_byte_access.md`, the RAM-under-ROM law: a byte written under any ROM answers false, and is read once a latch
write makes RAM visible there. -/
def Obligations.ByteUnderRomReadsAfterSwitchingTheRomOut : Prop :=
  ∀ (s t u : State) (a : Addr) (v x : Byte) (k : BankKind), s.fault = none →
    resolve s.flags a.toNat = .ok k → bankReadOnly k = true →
    exec (.writeByte a v) s = .next t → exec (setLatch x) t = .next u → resolve u.flags a.toNat = .ok .ram →
    t.responses = s.responses ++ [.wrote false] ∧ exec (.readByte a) u = .next (answered u (.byte v))

/-- `20_memory.md`, an inference the spec marks as its own: repeating a write leaves the same state and gives the same
`visible`. -/
def Obligations.RepeatedWriteChangesNothing : Prop :=
  ∀ (s t : State) (a : Addr) (v : Byte), s.wf = true → s.fault = none → exec (.writeByte a v) s = .next t →
    ∃ visible, t.responses = s.responses ++ [.wrote visible] ∧
      exec (.writeByte a v) t = .next (answered t (.wrote visible))

/-- `20_memory.md`, the overlap: no read sees the RAM byte under a visible ROM or I/O window, nor any byte of the I/O
window or of a ROM while that bank is nowhere visible. -/
def Obligations.HiddenStorageIsNotReadable : Prop :=
  ∀ (s : State) (i : Instr), isRead i = true →
    (∀ (a : Addr) (v : Byte), resolve s.flags a.toNat ≠ .ok .ram →
      ∃ x rs, exec i s = .next { s with fault := x, responses := rs } ∧
        exec i { s with ram := s.ram.write a.toNat v } =
          .next { s with ram := s.ram.write a.toNat v, fault := x, responses := rs }) ∧
    (∀ m : Memory, (∀ a : Addr, resolve s.flags a.toNat ≠ .ok .ioWindow) →
      ∃ x rs, exec i s = .next { s with fault := x, responses := rs } ∧
        exec i { s with io := m } = .next { s with io := m, fault := x, responses := rs }) ∧
    (∀ m : Memory, s.flags.basicOn = false →
      ∃ x rs, exec i s = .next { s with fault := x, responses := rs } ∧
        exec i { s with basic := m } = .next { s with basic := m, fault := x, responses := rs }) ∧
    (∀ m : Memory, s.flags.chargenOn = false →
      ∃ x rs, exec i s = .next { s with fault := x, responses := rs } ∧
        exec i { s with char := m } = .next { s with char := m, fault := x, responses := rs }) ∧
    (∀ m : Memory, s.flags.kernalOn = false →
      ∃ x rs, exec i s = .next { s with fault := x, responses := rs } ∧
        exec i { s with kernal := m } = .next { s with kernal := m, fault := x, responses := rs })

/-! ## Word access -/

/-- `44_word_access.md`: below 0xFFFF, and where neither byte read faults, a word read is the two byte reads, `a` the
low byte of the LE word and the high byte of the BE word, and changes nothing. -/
def Obligations.WordReadsAssembleTwoByteReads : Prop :=
  ∀ (s : State) (a : Addr), s.fault = none → a.toNat ≠ 0xFFFF →
    ¬ (s.flags.basicOn = true ∧ 0xBFFF ≤ a.toNat ∧ a.toNat ≤ 0xCFFF) →
    ∃ b0 b1 : Byte,
      exec (.readByte a) s = .next (answered s (.byte b0)) ∧
      exec (.readByte (a + 1)) s = .next (answered s (.byte b1)) ∧
      exec (.readWordLe a) s = .next (answered s (.word (b1 ++ b0))) ∧
      exec (.readWordBe a) s = .next (answered s (.word (b0 ++ b1)))

/-- `44_word_access.md`: below 0xFFFF a word write is the two byte writes, `a` first, and answers the AND of their
results; both are always performed. -/
def Obligations.WordWritesAreTwoByteWrites : Prop :=
  ∀ (s : State) (a : Addr) (w : Word), s.fault = none → a.toNat ≠ 0xFFFF →
    (∃ t0 t1 v0 v1, exec (.writeByte a (lo w)) s = .next t0 ∧ exec (.writeByte (a + 1) (hi w)) t0 = .next t1 ∧
      t1.responses = s.responses ++ [.wrote v0, .wrote v1] ∧
      exec (.writeWordLe a w) s = .next { t1 with responses := s.responses ++ [.wrote (v0 && v1)] }) ∧
    (∃ t0 t1 v0 v1, exec (.writeByte a (hi w)) s = .next t0 ∧ exec (.writeByte (a + 1) (lo w)) t0 = .next t1 ∧
      t1.responses = s.responses ++ [.wrote v0, .wrote v1] ∧
      exec (.writeWordBe a w) s = .next { t1 with responses := s.responses ++ [.wrote (v0 && v1)] })

/-- Spec decision D6 (log 13): all four word operations at 0xFFFF raise ADDRESS_OUT_OF_RANGE and touch no byte. -/
def Obligations.WordOperationsAtTheTopFault : Prop :=
  ∀ (s : State) (w : Word), s.fault = none →
    exec (.readWordLe 0xFFFF) s = .next (faulted s (.addressOutOfRange 0xFFFF) 2) ∧
    exec (.readWordBe 0xFFFF) s = .next (faulted s (.addressOutOfRange 0xFFFF) 2) ∧
    exec (.writeWordLe 0xFFFF w) s = .next (faulted s (.addressOutOfRange 0xFFFF) 2) ∧
    exec (.writeWordBe 0xFFFF w) s = .next (faulted s (.addressOutOfRange 0xFFFF) 2)

/-- `44_word_access.md`, the round trip in the form the spec derives: a word write that answers true is read back whole
by the read of its own order, and with its bytes exchanged by the other. -/
def Obligations.VisibleWordWriteRoundTrips : Prop :=
  ∀ (s t : State) (a : Addr) (w : Word), s.fault = none → t.responses = s.responses ++ [.wrote true] →
    (exec (.writeWordLe a w) s = .next t →
      exec (.readWordLe a) t = .next (answered t (.word w)) ∧
      exec (.readWordBe a) t = .next (answered t (.word (lo w ++ hi w)))) ∧
    (exec (.writeWordBe a w) s = .next t →
      exec (.readWordBe a) t = .next (answered t (.word w)) ∧
      exec (.readWordLe a) t = .next (answered t (.word (lo w ++ hi w))))

/-- Spec decision D7 (log 14) cannot be observed: the two byte writes of a word write, in either order, give the same
two results and the same state. -/
def Obligations.WordWriteOrderIsUnobservable : Prop :=
  ∀ (s : State) (a : Addr) (b0 b1 : Byte), s.wf = true → a.toNat ≠ 0xFFFF →
    ∃ v0 v1 s0 s1 t,
      writeByte a b0 s = .ok v0 s0 ∧ writeByte (a + 1) b1 s0 = .ok v1 t ∧
      writeByte (a + 1) b1 s = .ok v1 s1 ∧ writeByte a b0 s1 = .ok v0 t

/-! ## RESET and construction -/

/-- `45_reset_op.md` rule R150 (with `90_conflicts.md` C1): from every state without a fault RESET stores 0xFF at
0x0000 and 0x07 at 0x0001, leaves the flags of latch value 7, answers Done and changes nothing else. The first clause
is its encoding. -/
def Obligations.ResetWritesTwoBytesAndDerivesFlags : Prop :=
  encode .reset = 0x0600000000#40 ∧
  ∀ s : State, s.fault = none →
    exec .reset s = .next { s with
      ram := (s.ram.write 0 0xFF).write 1 0x07
      flags := { basicOn := true, kernalOn := true, chargenOn := false, ioOn := true }
      responses := s.responses ++ [.done] }

/-- `45_reset_op.md`, an inference the spec marks as its own: a second RESET right after the first changes nothing. -/
def Obligations.ResetIsIdempotent : Prop :=
  ∀ s t : State, s.wf = true → s.fault = none → exec .reset s = .next t → exec .reset t = .next (answered t .done)

/-- `10_state.md`, the values at construction and after RESET, over all construction parameters of the right lengths
(spec decision D4, log 7). -/
def Obligations.ConstructionThenResetLeavesTheListedValues : Prop :=
  ∀ p : ConstructParams, rightLengths p →
    ∃ s t, construct p = .next s ∧ exec .reset s = .next t ∧
      (∀ i, s.ram.read i = p.ramInit.getD i 0 ∧ s.io.read i = p.ioInit.getD i 0 ∧
        s.basic.read i = p.basicImage.getD i 0 ∧ s.char.read i = p.charImage.getD i 0 ∧
        s.kernal.read i = p.kernalImage.getD i 0) ∧
      s.flags = p.flagsInit ∧ s.cartA = false ∧ s.cartB = false ∧ s.fault = none ∧ s.wf = true ∧
      t.ram.read 0 = 0xFF ∧ t.ram.read 1 = 0x07 ∧ (∀ i, 2 ≤ i → t.ram.read i = p.ramInit.getD i 0) ∧
      (t.io = s.io ∧ t.basic = s.basic ∧ t.char = s.char ∧ t.kernal = s.kernal) ∧
      t.flags = { basicOn := true, kernalOn := true, chargenOn := false, ioOn := true } ∧
      t.cartA = false ∧ t.cartB = false ∧ t.fault = none ∧ t.Inv

/-- Spec decision D10 and log 19: a construction is refused, by the bank and the length, exactly when some length is
wrong. -/
def Obligations.ConstructionRefusesExactlyWrongLengths : Prop :=
  ∀ p : ConstructParams,
    (rightLengths p ↔ ∃ s, construct p = .next s) ∧
    (¬ rightLengths p ↔ ∃ k n, construct p = .refused (.imageLength k n) ∧ n = (imageFor p k).length ∧ n ≠ bankLength k)

/-- The model's choice of `State.reset` (logs 4, 5 and 6): it is what construction with zero-filled images and memories,
under any `flags_init`, followed by RESET, leaves, but for the response list. -/
def Obligations.ResetStateIsAZeroFilledBlockAfterReset : Prop :=
  ∀ f : Flags,
    ∃ s, construct (zeroFilled f) = .next s ∧ exec .reset s = .next (answered State.reset .done)

/-- `10_state.md`, the values after RESET that the spec gives, in `State.reset`. -/
def Obligations.ResetStateHoldsTheSpecifiedValues : Prop :=
  State.reset.ram.read 0 = 0xFF ∧ State.reset.ram.read 1 = 0x07 ∧
  State.reset.flags = { basicOn := true, kernalOn := true, chargenOn := false, ioOn := true } ∧
  State.reset.cartA = false ∧ State.reset.cartB = false ∧ State.reset.fault = none

/-! ## Faults -/

/-- Spec decision D8 (log 11): a faulted block answers every operation, RESET included, with the code of its fault and
changes nothing. -/
def Obligations.FaultedBlockAnswersOnlyItsFault : Prop :=
  ∀ (i : Instr) (s : State) (k : BankKind) (a : Nat),
    (s.fault = some (.writeToReadOnly k a) → exec i s = .next (answered s (.fault 1))) ∧
    (s.fault = some (.addressOutOfRange a) → exec i s = .next (answered s (.fault 2))) ∧
    (s.fault = some (.bankIndexOutOfRange k a) → exec i s = .next (answered s (.fault 3)))

/-- Spec decision D8: a fault is never cleared, and no run of a faulted block changes a bank or a flag or answers
anything but the fault's code. -/
def Obligations.FaultIsNeverCleared : Prop :=
  ∀ (n : Nat) (s t : State) (f : Fault), s.fault = some f → Sys2Proof.core.run n s = .next t →
    t.fault = some f ∧ (∀ k, t.bank k = s.bank k) ∧ t.flags = s.flags ∧
    ∃ m, m ≤ n ∧ t.responses = s.responses ++ List.replicate m (.fault (faultCode f))

/-- `60_exceptions.md`, the reachable causes and their precision, resting on spec decisions D5, D6 and D8: an accepted
operation faults exactly where the table says, with the information recorded, and then nothing else has changed. -/
def Obligations.OperationsFaultExactlyWhereListed : Prop :=
  ∀ (i : Instr) (s : State), s.fault = none →
    ∃ t, exec i s = .next t ∧ t.fault = expectedFault s.flags i ∧
      ∀ f, t.fault = some f → t = faulted s f (faultCode f)

/-! ## Frames -/

/-- The frame of the reads: nothing changes but the fault record and the responses. -/
def Obligations.ReadsChangeOnlyFaultAndResponses : Prop :=
  ∀ (i : Instr) (s t : State), isRead i = true → exec i s = .next t →
    (∀ k j, t.byteAt k j = s.byteAt k j) ∧ t.flags = s.flags ∧ sameElsewhere s t ∧
    ∃ x r, t = { s with fault := x, responses := s.responses ++ [r] } ∧ (s.fault ≠ none → x = s.fault)

/-- The frame of WRITE_BYTE: one byte of RAM or of the I/O window, the flags at 0x0001 only, one response. -/
def Obligations.WriteByteChangesOneCell : Prop :=
  ∀ (s t : State) (a : Addr) (v : Byte), exec (.writeByte a v) s = .next t →
    (∀ k j, storedCell s.flags a = some (k, j) →
      (k = .ram ∨ k = .ioWindow) ∧ (s.fault = none → t.byteAt k j = v) ∧
      ∀ k' j', (k', j') ≠ (k, j) → t.byteAt k' j' = s.byteAt k' j') ∧
    storedCell s.flags a ≠ none ∧
    (a.toNat ≠ 1 → t.flags = s.flags) ∧ t.fault = s.fault ∧ sameElsewhere s t ∧
    (s.fault ≠ none → ∀ k j, t.byteAt k j = s.byteAt k j) ∧
    ∃ r, t.responses = s.responses ++ [r]

/-- The frame of the word writes: the cell at `a` under the flags before, and the cell at `a + 1` under the flags the
first byte write leaves; at 0xFFFF no cell. -/
def Obligations.WordWritesChangeTwoCells : Prop :=
  ∀ (s t t0 : State) (a : Addr) (w : Word) (b : Byte) (i : Instr),
    (i = .writeWordLe a w ∧ b = lo w ∨ i = .writeWordBe a w ∧ b = hi w) →
    exec (.writeByte a b) s = .next t0 → exec i s = .next t →
    (∀ k j, storedCell s.flags a ≠ some (k, j) → storedCell t0.flags (a + 1) ≠ some (k, j) →
      t.byteAt k j = s.byteAt k j) ∧
    (a.toNat = 0xFFFF → ∀ k j, t.byteAt k j = s.byteAt k j) ∧
    (1 < a.toNat → t.flags = s.flags) ∧ sameElsewhere s t ∧
    (a.toNat ≠ 0xFFFF → t.fault = s.fault) ∧
    (s.fault ≠ none → t.fault = s.fault ∧ t.flags = s.flags ∧ ∀ k j, t.byteAt k j = s.byteAt k j) ∧
    ∃ r, t.responses = s.responses ++ [r]

/-- The frame of RESET: every byte but `RAM[0]` and `RAM[1]`, the fault record and the constant state; of a faulted
block everything but the responses. -/
def Obligations.ResetChangesTwoBytesAndFlags : Prop :=
  ∀ s t : State, exec .reset s = .next t →
    (∀ k j, (k, j) ≠ (.ram, 0) → (k, j) ≠ (.ram, 1) → t.byteAt k j = s.byteAt k j) ∧
    t.fault = s.fault ∧ sameElsewhere s t ∧
    (s.fault ≠ none → t.flags = s.flags ∧ ∀ k j, t.byteAt k j = s.byteAt k j) ∧
    ∃ r, t.responses = s.responses ++ [r]

/-! ## Invariants and runs -/

/-- The reset state is canonical, its flags are consistent and it is final. -/
def Obligations.ResetStateMeetsTheInvariant : Prop :=
  State.reset.Inv ∧ State.reset.final = true

/-- Every step, from every such state, keeps the five banks canonical and inside their lengths and the cartridge flags
false, whatever the flags and the fault record are. -/
def Obligations.StepKeepsBanksCanonicalAndCartsFalse : Prop :=
  ∀ s t : State, s.wf = true → step s = .next t → t.wf = true

/-- `10_state.md`, the flag invariant as the spec derives it: every step keeps the four flags consistent with the latch
byte. -/
def Obligations.StepKeepsFlagsConsistent : Prop :=
  ∀ s t : State, s.flagsConsistent = true → step s = .next t → t.flagsConsistent = true

/-- `45_reset_op.md`, an inference the spec marks as its own: RESET establishes the invariant from any flags. -/
def Obligations.ResetEstablishesTheInvariant : Prop :=
  ∀ s : State, s.wf = true → s.fault = none → ∃ t, exec .reset s = .next t ∧ t.Inv

/-- `10_state.md`: over runs of any length no step changes a ROM or a cartridge flag. -/
def Obligations.RunsNeverChangeRomsOrCartFlags : Prop :=
  ∀ (n : Nat) (s t : State), Sys2Proof.core.run n s = .next t →
    t.basic = s.basic ∧ t.char = s.char ∧ t.kernal = s.kernal ∧ t.cartA = s.cartA ∧ t.cartB = s.cartB

/-- `30_encoding.md`, the response to each request: n operations issued together take n steps of the block and get
exactly one response each, in order, of the operation's form or a fault. This is the block, which goes on answering
after a fault; where the run of a program ends is the next statement. -/
def Obligations.EveryProgramGetsOneResponsePerOperation : Prop :=
  ∀ (program : List Instr) (s : State), s.requests = [] →
    ∃ t rs, Sys2Proof.core.run program.length (s.issueProgram program) = .next t ∧ t.requests = [] ∧
      t.responses = s.responses ++ rs ∧ List.Forall₂ answers program rs

/-- `70_reset_and_hazards.md`, the end of a run, with the model's refusal on a faulted block too (log 9): the run of any
issued words is completed exactly when every word was answered and none with `Fault(code)`; it ends at the first
response `Fault(code)`, with the later words not taken; or at the first refused word, with that word and the later ones
not taken. -/
def Obligations.RunEndsAtLastResponseFirstFaultOrFirstRefusal : Prop :=
  ∀ (s : State) (words : List ReqWord), s.requests = [] →
    (∀ t, (s.issue words).run = .completed t ↔
      Sys2Proof.core.run words.length (s.issue words) = .next t ∧ t.requests = [] ∧
      ∃ rs, t.responses = s.responses ++ rs ∧ rs.length = words.length ∧ ∀ r ∈ rs, ∀ code, r ≠ .fault code) ∧
    (∀ t, (s.issue words).run = .faulted t ↔
      ∃ before w after rs code, words = before ++ w :: after ∧
        Sys2Proof.core.run (before.length + 1) (s.issue words) = .next t ∧ t.requests = after ∧
        t.responses = s.responses ++ rs ++ [.fault code] ∧ rs.length = before.length ∧
        ∀ r ∈ rs, ∀ code, r ≠ .fault code) ∧
    (∀ why t, (s.issue words).run = .refused why t ↔
      ∃ before w after rs reason, words = before ++ w :: after ∧
        Sys2Proof.core.run before.length (s.issue words) = .next t ∧ t.requests = w :: after ∧
        decode w = .error reason ∧ why = .reservedRequest reason ∧
        t.responses = s.responses ++ rs ∧ rs.length = before.length ∧ ∀ r ∈ rs, ∀ code, r ≠ .fault code)

/-- `70_reset_and_hazards.md`, the end of a run: a run is final exactly when it was completed and holds no fault, its
result is its own responses and the end state's RAM, I/O window, flags and fault record, and a fault it meets is in that
record. -/
def Obligations.RunIsFinalOnlyWhenCompletedWithoutFault : Prop :=
  ∀ (s : State) (words : List ReqWord), s.requests = [] →
    ((s.issue words).run.final = true ↔ ∃ t, (s.issue words).run = .completed t ∧ t.fault = none) ∧
    (∀ t, (s.issue words).run = .faulted t → ∃ f, t.fault = some f ∧ t.responses.getLast? = some (.fault (faultCode f))) ∧
    ∃ t rs, (s.issue words).run.state = t ∧ t.responses = s.responses ++ rs ∧ rs.length ≤ words.length ∧
      (s.issue words).runResult = { responses := rs, ram := t.ram, io := t.io, flags := t.flags, fault := t.fault }

/-- The hazards of `70_reset_and_hazards.md`, resting on spec decisions D5 and D6: a program without word operations at
0xFFFF and without reads that touch 0xC000 to 0xCFFF runs safely from every state that holds no fault. -/
def Obligations.ProgramsAvoidingTheHazardsRunSafely : Prop :=
  ∀ (program : List Instr) (s : State), s.fault = none → s.requests = [] → (∀ i ∈ program, faultFree i) →
    SafeRun s program
end

