-- ==== Sys2Proof/Laws/Decode.lean ====
section
/-! SUPPORT. The laws of the request word: packing and field extraction undo each other, and masking a word masks each
of its fields. -/

namespace Sys2Proof

@[simp] theorem fieldsOf_packFields (f : RequestFields) : fieldsOf (packFields f) = f := by
  obtain ⟨op, addr, data⟩ := f
  simp only [fieldsOf, packFields, RequestFields.mk.injEq]
  refine ⟨?_, ?_, ?_⟩
  · ext i hi
    simp only [BitVec.getElem_extractLsb', BitVec.getLsbD_append]
    rw [if_neg (by omega), if_neg (by omega)]
    simp only [show 32 + i - 16 - 16 = i by omega]
    exact (BitVec.getLsbD_eq_getElem hi)
  · ext i hi
    simp only [BitVec.getElem_extractLsb', BitVec.getLsbD_append]
    rw [if_neg (by omega), if_pos (by omega)]
    simp only [show 16 + i - 16 = i by omega]
    exact (BitVec.getLsbD_eq_getElem hi)
  · ext i hi
    simp only [BitVec.getElem_extractLsb', BitVec.getLsbD_append]
    rw [if_pos (by omega)]
    simp only [Nat.zero_add]
    exact (BitVec.getLsbD_eq_getElem hi)

@[simp] theorem packFields_fieldsOf (r : ReqWord) : packFields (fieldsOf r) = r := by
  ext i hi
  rw [← BitVec.getLsbD_eq_getElem, ← BitVec.getLsbD_eq_getElem]
  simp only [packFields, fieldsOf, BitVec.getLsbD_append, BitVec.getLsbD_extractLsb']
  split
  · next h => simp [h]
  · split
    · next h h' => simp [show i - 16 < 16 by omega, show 16 + (i - 16) = i by omega]
    · next h h' => simp [show i - 16 - 16 < 8 by omega, show 32 + (i - 16 - 16) = i by omega]

theorem packFields_injective {f g : RequestFields} (h : packFields f = packFields g) : f = g := by
  rw [← fieldsOf_packFields f, h, fieldsOf_packFields]

theorem packFields_and (f g : RequestFields) :
    packFields f &&& packFields g =
      packFields { op := f.op &&& g.op, addr := f.addr &&& g.addr, data := f.data &&& g.data } := by
  ext i hi
  rw [← BitVec.getLsbD_eq_getElem, ← BitVec.getLsbD_eq_getElem]
  simp only [packFields, BitVec.getLsbD_and, BitVec.getLsbD_append]
  split
  · rfl
  · split <;> rfl

/-- A row selects a word when it selects each field of it. -/
theorem selects_iff (f mask pattern : RequestFields) (m : String) :
    OpcodeRow.selects { mnemonic := m, mask := packFields mask, pattern := packFields pattern } (packFields f) = true ↔
      f.op &&& mask.op = pattern.op ∧ f.addr &&& mask.addr = pattern.addr ∧ f.data &&& mask.data = pattern.data := by
  simp only [OpcodeRow.selects, packFields_and, beq_iff_eq]
  constructor
  · intro h
    have := packFields_injective h
    rw [← this]
    exact ⟨rfl, rfl, rfl⟩
  · rintro ⟨h1, h2, h3⟩
    rw [h1, h2, h3]

/-- The upper byte of `data` is zero exactly when the mask 0xFF00 leaves zero. -/
theorem data_and_ff00 (d : Word) : d &&& 0xFF00 = 0 ↔ d.extractLsb' 8 8 = 0 := by
  constructor
  · intro h
    ext i hi
    have := congrArg (fun x : Word => x.getLsbD (8 + i)) h
    simp only [BitVec.getLsbD_and] at this
    have hm : (0xFF00 : Word).getLsbD (8 + i) = true := by
      have : ∀ j, j < 8 → (0xFF00 : Word).getLsbD (8 + j) = true := by decide
      exact this i hi
    rw [hm] at this
    simpa using this
  · intro h
    ext i hi
    by_cases h8 : i < 8
    · have hm : (0xFF00 : Word).getLsbD i = false := by
        have : ∀ j, j < 8 → (0xFF00 : Word).getLsbD j = false := by decide
        exact this i h8
      rw [← BitVec.getLsbD_eq_getElem, BitVec.getLsbD_and, hm]
      simp
    · have := congrArg (fun x : Byte => x.getLsbD (i - 8)) h
      simp only [BitVec.getLsbD_extractLsb', show i - 8 < 8 by omega, show 8 + (i - 8) = i by omega] at this
      rw [← BitVec.getLsbD_eq_getElem, BitVec.getLsbD_and]
      have h0 : d.getLsbD i = false := by simpa using this
      rw [h0]
      simp

/-- A word whose upper byte is zero is the zero extension of its lower byte. -/
theorem setWidth_lowByte {d : Word} (h : d.extractLsb' 8 8 = 0) : (d.extractLsb' 0 8).setWidth 16 = d := by
  ext i hi
  rw [← BitVec.getLsbD_eq_getElem, ← BitVec.getLsbD_eq_getElem, BitVec.getLsbD_setWidth, BitVec.getLsbD_extractLsb']
  by_cases h8 : i < 8
  · simp [hi, h8]
  · have := congrArg (fun x : Byte => x.getLsbD (i - 8)) h
    simp only [BitVec.getLsbD_extractLsb', show i - 8 < 8 by omega, show 8 + (i - 8) = i by omega] at this
    have h0 : d.getLsbD i = false := by simpa using this
    rw [h0]
    simp [h8]

theorem byte_and_ff (x : Byte) : x &&& 0xFF = x := by
  ext i hi
  have ones : ∀ j (hj : j < 8), (0xFF#8)[j] = true := by decide
  simp [ones i hi]

theorem word_and_ffff (x : Word) : x &&& 0xFFFF = x := by
  ext i hi
  have ones : ∀ j (hj : j < 16), (0xFFFF#16)[j] = true := by decide
  simp [ones i hi]

/-- What each row of the opcode map asks of the three fields of a word. -/
theorem opcodeMap_selects (f : RequestFields) : opcodeMap.map (·.selects (packFields f)) =
    [decide (f.op = 0 ∧ f.data = 0), decide (f.op = 1 ∧ f.data.extractLsb' 8 8 = 0), decide (f.op = 2 ∧ f.data = 0),
      decide (f.op = 3 ∧ f.data = 0), decide (f.op = 4), decide (f.op = 5),
      decide (f.op = 6 ∧ f.addr = 0 ∧ f.data = 0)] := by
  have rows : opcodeMap = [
      ⟨"READ_BYTE", packFields ⟨0xFF, 0, 0xFFFF⟩, packFields ⟨0, 0, 0⟩⟩,
      ⟨"WRITE_BYTE", packFields ⟨0xFF, 0, 0xFF00⟩, packFields ⟨1, 0, 0⟩⟩,
      ⟨"READ_WORD_LE", packFields ⟨0xFF, 0, 0xFFFF⟩, packFields ⟨2, 0, 0⟩⟩,
      ⟨"READ_WORD_BE", packFields ⟨0xFF, 0, 0xFFFF⟩, packFields ⟨3, 0, 0⟩⟩,
      ⟨"WRITE_WORD_LE", packFields ⟨0xFF, 0, 0⟩, packFields ⟨4, 0, 0⟩⟩,
      ⟨"WRITE_WORD_BE", packFields ⟨0xFF, 0, 0⟩, packFields ⟨5, 0, 0⟩⟩,
      ⟨"RESET", packFields ⟨0xFF, 0xFFFF, 0xFFFF⟩, packFields ⟨6, 0, 0⟩⟩] := by decide
  rw [rows]
  simp only [List.map_cons, List.map_nil, List.cons.injEq, and_true]
  refine ⟨?_, ?_, ?_, ?_, ?_, ?_, ?_⟩ <;> rw [Bool.eq_iff_iff, selects_iff, decide_eq_true_iff] <;>
    simp only [byte_and_ff, word_and_ffff, data_and_ff00] <;> simp

/-- The well-formed words by their fields. -/
theorem wellFormed_iff (f : RequestFields) : (packFields f).wellFormed = true ↔
    (f.op = 0 ∧ f.data = 0) ∨ (f.op = 1 ∧ f.data.extractLsb' 8 8 = 0) ∨ (f.op = 2 ∧ f.data = 0) ∨
      (f.op = 3 ∧ f.data = 0) ∨ f.op = 4 ∨ f.op = 5 ∨ (f.op = 6 ∧ f.addr = 0 ∧ f.data = 0) := by
  have any : (packFields f).wellFormed = (opcodeMap.map (·.selects (packFields f))).any id := by
    simp [ReqWord.wellFormed, List.any_map]
  rw [any, opcodeMap_selects]
  simp

theorem lowByte_setWidth (v : Byte) : (v.setWidth 16 : Word).extractLsb' 0 8 = v := by
  ext i hi
  simp [hi, show i < 16 by omega]

theorem highByte_setWidth (v : Byte) : (v.setWidth 16 : Word).extractLsb' 8 8 = 0 := by
  ext i hi
  simp [BitVec.getLsbD_setWidth]

end Sys2Proof
end

