-- ==== Sys2Proof/Laws/Memory.lean ====
section
/-! SUPPORT. The laws of one bank's storage: a read after a write, the canonical form, and that a canonical storage is
determined by its reads. -/

namespace Sys2Proof.Machine

open Config

@[simp] theorem Memory.read_nil (i : Nat) : Memory.read [] i = unlistedByte := rfl

@[simp] theorem Memory.read_cons (j : Nat) (b : Byte) (m : Memory) (i : Nat) :
    Memory.read ((j, b) :: m) i = if j = i then b else Memory.read m i := rfl

theorem Memory.read_erase (m : Memory) (i j : Nat) :
    (m.erase i).read j = if j = i then unlistedByte else m.read j := by
  induction m with
  | nil => simp [Memory.erase]
  | cons c m ih =>
    obtain ⟨k, b⟩ := c
    by_cases hki : k = i
    · by_cases hji : j = i
      · subst hji; simpa [Memory.erase, hki] using ih
      · simp [Memory.erase, hki, hji, ih, Ne.symm hji]
    · by_cases hkj : k = j
      · subst hkj; simp [Memory.erase, hki]
      · simp [Memory.erase, hki, hkj, ih]

theorem Memory.read_insert (m : Memory) (i j : Nat) (v : Byte) :
    (Memory.insert (m.erase i) i v).read j = if j = i then v else m.read j := by
  induction m with
  | nil =>
    by_cases hji : j = i
    · simp [Memory.erase, Memory.insert, hji]
    · simp [Memory.erase, Memory.insert, hji, Ne.symm hji]
  | cons c m ih =>
    obtain ⟨k, b⟩ := c
    by_cases hki : k = i
    · by_cases hji : j = i
      · simp [Memory.erase, hki, hji] at ih ⊢; exact ih
      · simp [Memory.erase, hki, hji, Ne.symm hji] at ih ⊢; exact ih
    · by_cases hik : i < k
      · by_cases hji : j = i
        · simp [Memory.erase, Memory.insert, hki, hik, hji]
        · simp [Memory.erase, Memory.insert, hki, hik, hji, Ne.symm hji, Memory.read_erase]
      · by_cases hkj : k = j
        · subst hkj; simp [Memory.erase, Memory.insert, hki, hik]
        · simp [Memory.erase, Memory.insert, hki, hik, hkj, ih]

/-- A read after a store: the byte stored at its own index, every other index as before. -/
theorem Memory.read_write (m : Memory) (i j : Nat) (v : Byte) :
    (m.write i v).read j = if j = i then v else m.read j := by
  unfold Memory.write
  split
  · next h => rw [Memory.read_erase, h]
  · exact Memory.read_insert m i j v

@[simp] theorem Memory.read_write_same (m : Memory) (i : Nat) (v : Byte) : (m.write i v).read i = v := by
  simp [Memory.read_write]

theorem Memory.read_write_other (m : Memory) {i j : Nat} (v : Byte) (h : j ≠ i) :
    (m.write i v).read j = m.read j := by
  simp [Memory.read_write, h]

theorem Memory.wfFrom_mono {lo lo' size : Nat} {m : Memory} (h : Memory.wfFrom lo size m = true) (hlo : lo' ≤ lo) :
    Memory.wfFrom lo' size m = true := by
  cases m with
  | nil => rfl
  | cons c m =>
    obtain ⟨k, b⟩ := c
    simp only [Memory.wfFrom, Bool.and_eq_true, decide_eq_true_eq] at h ⊢
    exact ⟨⟨⟨by omega, h.1.1.2⟩, h.1.2⟩, h.2⟩

theorem Memory.wfFrom_erase {lo size : Nat} {m : Memory} (i : Nat) (h : Memory.wfFrom lo size m = true) :
    Memory.wfFrom lo size (m.erase i) = true := by
  induction m generalizing lo with
  | nil => rfl
  | cons c m ih =>
    obtain ⟨k, b⟩ := c
    simp only [Memory.wfFrom, Bool.and_eq_true, decide_eq_true_eq] at h
    by_cases hki : k = i
    · simp only [Memory.erase, hki, if_true]
      exact ih (Memory.wfFrom_mono h.2 (by omega))
    · simp only [Memory.erase, hki, if_false, Memory.wfFrom, Bool.and_eq_true, decide_eq_true_eq]
      exact ⟨h.1, ih h.2⟩

theorem Memory.wfFrom_insert {lo size i : Nat} {m : Memory} {v : Byte} (h : Memory.wfFrom lo size m = true)
    (hlo : lo ≤ i) (hi : i < size) (hv : v ≠ unlistedByte) :
    Memory.wfFrom lo size (Memory.insert (m.erase i) i v) = true := by
  induction m generalizing lo with
  | nil => simp [Memory.erase, Memory.insert, Memory.wfFrom, hlo, hi, hv]
  | cons c m ih =>
    obtain ⟨k, b⟩ := c
    simp only [Memory.wfFrom, Bool.and_eq_true, decide_eq_true_eq] at h
    by_cases hki : k = i
    · simp only [Memory.erase, hki, if_true]
      exact ih (Memory.wfFrom_mono h.2 (by omega)) hlo
    · by_cases hik : i < k
      · simp only [Memory.erase, Memory.insert, hki, hik, if_true, if_false, Memory.wfFrom, Bool.and_eq_true,
          decide_eq_true_eq]
        exact ⟨⟨⟨hlo, hi⟩, hv⟩, ⟨⟨by omega, h.1.1.2⟩, h.1.2⟩, Memory.wfFrom_erase i h.2⟩
      · simp only [Memory.erase, Memory.insert, hki, hik, if_false, Memory.wfFrom, Bool.and_eq_true,
          decide_eq_true_eq]
        exact ⟨h.1, ih h.2 (by omega)⟩

/-- A store inside a bank keeps its canonical form. -/
theorem Memory.wf_write {size i : Nat} {m : Memory} (v : Byte) (h : m.wf size = true) (hi : i < size) :
    (m.write i v).wf size = true := by
  unfold Memory.wf Memory.write at *
  split
  · exact Memory.wfFrom_erase i h
  · next hv => exact Memory.wfFrom_insert h (Nat.zero_le i) hi hv

theorem Memory.read_below {lo size i : Nat} {m : Memory} (h : Memory.wfFrom lo size m = true) (hi : i < lo) :
    m.read i = unlistedByte := by
  induction m generalizing lo with
  | nil => rfl
  | cons c m ih =>
    obtain ⟨k, b⟩ := c
    simp only [Memory.wfFrom, Bool.and_eq_true, decide_eq_true_eq] at h
    rw [Memory.read_cons, if_neg (by omega)]
    exact ih h.2 (by omega)

theorem Memory.ext_from {lo size : Nat} {m m' : Memory} (h : Memory.wfFrom lo size m = true)
    (h' : Memory.wfFrom lo size m' = true) (hr : ∀ i, m.read i = m'.read i) : m = m' := by
  induction m generalizing lo m' with
  | nil =>
    cases m' with
    | nil => rfl
    | cons c m' =>
      obtain ⟨k, b⟩ := c
      simp only [Memory.wfFrom, Bool.and_eq_true, decide_eq_true_eq] at h'
      have := hr k
      simp at this
      exact absurd this.symm h'.1.2
  | cons c m ih =>
    obtain ⟨k, b⟩ := c
    have hw := h
    simp only [Memory.wfFrom, Bool.and_eq_true, decide_eq_true_eq] at h
    cases m' with
    | nil =>
      have := hr k
      simp at this
      exact absurd this h.1.2
    | cons c' m' =>
      obtain ⟨k', b'⟩ := c'
      have hw' := h'
      simp only [Memory.wfFrom, Bool.and_eq_true, decide_eq_true_eq] at h'
      have hk : k = k' := by
        rcases Nat.lt_trichotomy k k' with hlt | heq | hgt
        · have := hr k
          rw [Memory.read_cons, if_pos rfl, Memory.read_cons, if_neg (by omega),
            Memory.read_below h'.2 (by omega)] at this
          exact absurd this h.1.2
        · exact heq
        · have := hr k'
          rw [Memory.read_cons, if_neg (by omega), Memory.read_below h.2 (by omega), Memory.read_cons,
            if_pos rfl] at this
          exact absurd this.symm h'.1.2
      subst hk
      have hb : b = b' := by simpa using hr k
      subst hb
      congr 1
      refine ih h.2 h'.2 fun i => ?_
      by_cases hki : k = i
      · subst hki
        rw [Memory.read_below h.2 (by omega), Memory.read_below h'.2 (by omega)]
      · simpa [hki] using hr i

/-- Two canonical storages that read alike everywhere are equal. -/
theorem Memory.ext_of_read {size : Nat} {m m' : Memory} (h : m.wf size = true) (h' : m'.wf size = true)
    (hr : ∀ i, m.read i = m'.read i) : m = m' :=
  Memory.ext_from h h' hr

/-- Storing the byte already there changes nothing. -/
theorem Memory.write_read_self {size i : Nat} {m : Memory} (h : m.wf size = true) (hi : i < size) :
    m.write i (m.read i) = m := by
  refine Memory.ext_of_read (Memory.wf_write _ h hi) h fun j => ?_
  rw [Memory.read_write]
  split
  · next hj => rw [hj]
  · rfl

/-- Of two stores at one index the later stands. -/
theorem Memory.write_write_same {size i : Nat} {m : Memory} (u v : Byte) (h : m.wf size = true) (hi : i < size) :
    (m.write i u).write i v = m.write i v := by
  refine Memory.ext_of_read (Memory.wf_write v (Memory.wf_write u h hi) hi) (Memory.wf_write v h hi) fun j => ?_
  simp only [Memory.read_write]
  split <;> rfl

/-- Stores at different indices commute. -/
theorem Memory.write_comm {size i j : Nat} {m : Memory} (u v : Byte) (h : m.wf size = true) (hi : i < size)
    (hj : j < size) (hij : i ≠ j) : (m.write i u).write j v = (m.write j v).write i u := by
  refine Memory.ext_of_read (Memory.wf_write v (Memory.wf_write u h hi) hj)
    (Memory.wf_write u (Memory.wf_write v h hj) hi) fun k => ?_
  simp only [Memory.read_write]
  by_cases hk : k = j
  · subst hk; simp [Ne.symm hij]
  · simp [hk]

theorem Memory.read_ofBytesFrom (bytes : List Byte) (k i : Nat) :
    (Memory.ofBytesFrom k bytes).read (k + i) = bytes.getD i unlistedByte := by
  induction bytes generalizing k i with
  | nil => simp [Memory.ofBytesFrom]
  | cons b bytes ih =>
    have below : ∀ (l : List Byte) (n j : Nat), j < n → (Memory.ofBytesFrom n l).read j = unlistedByte := by
      intro l
      induction l with
      | nil => intro n j _; rfl
      | cons c l ihl =>
        intro n j hj
        unfold Memory.ofBytesFrom
        split
        · exact ihl (n + 1) j (by omega)
        · rw [Memory.read_cons, if_neg (by omega)]; exact ihl (n + 1) j (by omega)
    unfold Memory.ofBytesFrom
    cases i with
    | zero =>
      split
      · next hb => rw [below _ _ _ (by omega)]; simp [hb]
      · simp
    | succ i =>
      have e : k + (i + 1) = k + 1 + i := by omega
      split
      · rw [e, ih]; simp
      · rw [Memory.read_cons, if_neg (by omega), e, ih]; simp

/-- A storage built from its bytes holds byte `i` at index `i`. -/
theorem Memory.read_ofBytes (bytes : List Byte) (i : Nat) :
    (Memory.ofBytes bytes).read i = bytes.getD i unlistedByte := by
  have := Memory.read_ofBytesFrom bytes 0 i
  rwa [Nat.zero_add] at this

/-- A storage built from `size` bytes is canonical. -/
theorem Memory.wf_ofBytes {size : Nat} {bytes : List Byte} (h : bytes.length = size) :
    (Memory.ofBytes bytes).wf size = true := by
  have key : ∀ (l : List Byte) (k : Nat), k + l.length ≤ size → Memory.wfFrom k size (Memory.ofBytesFrom k l) = true := by
    intro l
    induction l with
    | nil => intro k _; rfl
    | cons b l ih =>
      intro k hk
      simp only [List.length_cons] at hk
      have hrest := ih (k + 1) (by omega)
      unfold Memory.ofBytesFrom
      split
      · exact Memory.wfFrom_mono hrest (by omega)
      · next hb =>
        simp only [Memory.wfFrom, Bool.and_eq_true, decide_eq_true_eq]
        exact ⟨⟨⟨Nat.le_refl k, by omega⟩, hb⟩, hrest⟩
  exact key bytes 0 (by omega)

/-- A bank filled with the unlisted byte lists nothing. -/
theorem Memory.ofBytes_replicate (n : Nat) : Memory.ofBytes (List.replicate n unlistedByte) = [] := by
  have key : ∀ n k, Memory.ofBytesFrom k (List.replicate n unlistedByte) = [] := by
    intro n
    induction n with
    | zero => intro k; rfl
    | succ n ih => intro k; rw [List.replicate_succ, Memory.ofBytesFrom, if_pos rfl]; exact ih (k + 1)
  exact key n 0

end Sys2Proof.Machine
end

