-- ==== Sys2Proof/Laws/State.lean ====
section
/-! SUPPORT. One lemma per field per update of State, true by definition, so that no later proof unfolds an update. -/

namespace Sys2Proof.Machine

section Respond
variable (s : State) (r : Response)
@[simp] theorem State.respond_ram : (s.respond r).ram = s.ram := rfl
@[simp] theorem State.respond_basic : (s.respond r).basic = s.basic := rfl
@[simp] theorem State.respond_char : (s.respond r).char = s.char := rfl
@[simp] theorem State.respond_io : (s.respond r).io = s.io := rfl
@[simp] theorem State.respond_kernal : (s.respond r).kernal = s.kernal := rfl
@[simp] theorem State.respond_flags : (s.respond r).flags = s.flags := rfl
@[simp] theorem State.respond_cartA : (s.respond r).cartA = s.cartA := rfl
@[simp] theorem State.respond_cartB : (s.respond r).cartB = s.cartB := rfl
@[simp] theorem State.respond_fault : (s.respond r).fault = s.fault := rfl
@[simp] theorem State.respond_requests : (s.respond r).requests = s.requests := rfl
@[simp] theorem State.respond_responses : (s.respond r).responses = s.responses ++ [r] := rfl
@[simp] theorem State.respond_bank (k : BankKind) : (s.respond r).bank k = s.bank k := by cases k <;> rfl
@[simp] theorem State.respond_byteAt (k : BankKind) (i : Nat) : (s.respond r).byteAt k i = s.byteAt k i := by
  cases k <;> rfl
@[simp] theorem State.respond_latchByte : (s.respond r).latchByte = s.latchByte := rfl
end Respond

section Raise
variable (s : State) (f : Fault)
@[simp] theorem State.raise_ram : (s.raise f).ram = s.ram := rfl
@[simp] theorem State.raise_basic : (s.raise f).basic = s.basic := rfl
@[simp] theorem State.raise_char : (s.raise f).char = s.char := rfl
@[simp] theorem State.raise_io : (s.raise f).io = s.io := rfl
@[simp] theorem State.raise_kernal : (s.raise f).kernal = s.kernal := rfl
@[simp] theorem State.raise_flags : (s.raise f).flags = s.flags := rfl
@[simp] theorem State.raise_cartA : (s.raise f).cartA = s.cartA := rfl
@[simp] theorem State.raise_cartB : (s.raise f).cartB = s.cartB := rfl
@[simp] theorem State.raise_fault : (s.raise f).fault = some f := rfl
@[simp] theorem State.raise_requests : (s.raise f).requests = s.requests := rfl
@[simp] theorem State.raise_responses : (s.raise f).responses = s.responses ++ [.fault (faultCode f)] := rfl
@[simp] theorem State.raise_bank (k : BankKind) : (s.raise f).bank k = s.bank k := by cases k <;> rfl
@[simp] theorem State.raise_byteAt (k : BankKind) (i : Nat) : (s.raise f).byteAt k i = s.byteAt k i := by
  cases k <;> rfl
@[simp] theorem State.raise_latchByte : (s.raise f).latchByte = s.latchByte := rfl
end Raise

section Derive
variable (s : State)
@[simp] theorem State.derive_ram : s.derive.ram = s.ram := rfl
@[simp] theorem State.derive_basic : s.derive.basic = s.basic := rfl
@[simp] theorem State.derive_char : s.derive.char = s.char := rfl
@[simp] theorem State.derive_io : s.derive.io = s.io := rfl
@[simp] theorem State.derive_kernal : s.derive.kernal = s.kernal := rfl
@[simp] theorem State.derive_flags : s.derive.flags = deriveFlags s.latchByte := rfl
@[simp] theorem State.derive_cartA : s.derive.cartA = s.cartA := rfl
@[simp] theorem State.derive_cartB : s.derive.cartB = s.cartB := rfl
@[simp] theorem State.derive_fault : s.derive.fault = s.fault := rfl
@[simp] theorem State.derive_requests : s.derive.requests = s.requests := rfl
@[simp] theorem State.derive_responses : s.derive.responses = s.responses := rfl
@[simp] theorem State.derive_bank (k : BankKind) : s.derive.bank k = s.bank k := by cases k <;> rfl
@[simp] theorem State.derive_byteAt (k : BankKind) (i : Nat) : s.derive.byteAt k i = s.byteAt k i := by
  cases k <;> rfl
@[simp] theorem State.derive_latchByte : s.derive.latchByte = s.latchByte := rfl
end Derive

section SetBank
variable (s : State) (k : BankKind) (m : Memory)
@[simp] theorem State.setBank_flags : (s.setBank k m).flags = s.flags := by cases k <;> rfl
@[simp] theorem State.setBank_cartA : (s.setBank k m).cartA = s.cartA := by cases k <;> rfl
@[simp] theorem State.setBank_cartB : (s.setBank k m).cartB = s.cartB := by cases k <;> rfl
@[simp] theorem State.setBank_fault : (s.setBank k m).fault = s.fault := by cases k <;> rfl
@[simp] theorem State.setBank_requests : (s.setBank k m).requests = s.requests := by cases k <;> rfl
@[simp] theorem State.setBank_responses : (s.setBank k m).responses = s.responses := by cases k <;> rfl
@[simp] theorem State.setBank_bank_same : (s.setBank k m).bank k = m := by cases k <;> rfl
theorem State.setBank_bank_other {j : BankKind} (h : j ≠ k) : (s.setBank k m).bank j = s.bank j := by
  cases k <;> cases j <;> first | rfl | exact absurd rfl h
theorem State.setBank_bank (j : BankKind) : (s.setBank k m).bank j = if j = k then m else s.bank j := by
  cases k <;> cases j <;> rfl
end SetBank

section Requests
variable (s : State) (ws : List ReqWord) (w : Nat)
@[simp] theorem State.issue_requests : (s.issue ws).requests = s.requests ++ ws := rfl
@[simp] theorem State.issue_bank (k : BankKind) : (s.issue ws).bank k = s.bank k := by cases k <;> rfl
@[simp] theorem State.issue_flags : (s.issue ws).flags = s.flags := rfl
@[simp] theorem State.issue_fault : (s.issue ws).fault = s.fault := rfl
@[simp] theorem State.issue_responses : (s.issue ws).responses = s.responses := rfl
@[simp] theorem State.pushRequest_requests : (s.pushRequest w).requests = BitVec.ofNat 40 w :: s.requests := rfl
end Requests

end Sys2Proof.Machine
end

