-- ==== Sys2Proof/Laws/Ops.lean ====
section
/-! SUPPORT. What each shared operation can do, said once: the decoder and the arbiter on a 16-bit address, one byte
read, one byte write, and the pairs of a word operation. Later proofs cite these instead of unfolding. -/

namespace Sys2Proof.Machine

/-- The visible bank at a 16-bit address: RESOLVE where it cannot raise. -/
def visibleBank (f : Flags) (a : Addr) : BankKind :=
  if a.toNat ≤ 0x9FFF then .ram
  else if a.toNat ≤ 0xCFFF then if f.basicOn then .basicRom else .ram
  else if a.toNat ≤ 0xDFFF then if f.chargenOn then .characterRom else if f.ioOn then .ioWindow else .ram
  else if f.kernalOn then .kernalRom else .ram

/-- RESOLVE never raises on a 16-bit address. -/
theorem resolve_addr (f : Flags) (a : Addr) : resolve f a.toNat = .ok (visibleBank f a) := by
  have := a.isLt
  unfold resolve visibleBank
  repeat' split
  all_goals first | rfl | omega

theorem visibleBank_low (f : Flags) {a : Addr} (h : a.toNat ≤ 0x9FFF) : visibleBank f a = .ram := if_pos h

/-- The bank a byte write goes to is RAM or the I/O window. -/
theorem storeBank_visibleBank (f : Flags) (a : Addr) :
    storeBank (visibleBank f a) = .ram ∨
      storeBank (visibleBank f a) = .ioWindow ∧ visibleBank f a = .ioWindow ∧ 0xD000 ≤ a.toNat ∧ a.toNat ≤ 0xDFFF := by
  have := a.isLt
  unfold visibleBank
  repeat' split
  all_goals first
    | exact .inl rfl
    | exact .inr ⟨rfl, rfl, by omega, by omega⟩

theorem bankReadOnly_storeBank (k : BankKind) : bankReadOnly (storeBank k) = false := by cases k <;> rfl

/-- The one cell a byte write at a 16-bit address stores into. -/
theorem storedCell_addr (f : Flags) (a : Addr) :
    storedCell f a = some (storeBank (visibleBank f a), a.toNat - bankBase (storeBank (visibleBank f a))) ∧
      a.toNat - bankBase (storeBank (visibleBank f a)) < bankLength (storeBank (visibleBank f a)) := by
  have := a.isLt
  unfold storedCell writeTarget
  rw [resolve_addr]
  rcases storeBank_visibleBank f a with h | ⟨h, -, h1, h2⟩
  · simp only [h, bankIndex, bankBase, bankLength]
    rw [if_pos ⟨by omega, by omega⟩]
    exact ⟨rfl, by omega⟩
  · simp only [h, bankIndex, bankBase, bankLength]
    rw [if_pos ⟨by omega, by omega⟩]
    exact ⟨rfl, by omega⟩

/-- The state with one cell stored. -/
def State.store (s : State) (k : BankKind) (i : Nat) (v : Byte) : State := s.setBank k ((s.bank k).write i v)

/-- WRITE_BYTE never raises: it stores its one cell, then derives the flags at the latch address. -/
theorem writeByte_ok (a : Addr) (v : Byte) (s : State) :
    writeByte a v s = .ok (!bankReadOnly (visibleBank s.flags a))
      (afterStore a (s.store (storeBank (visibleBank s.flags a))
        (a.toNat - bankBase (storeBank (visibleBank s.flags a))) v)) := by
  obtain ⟨h, -⟩ := storedCell_addr s.flags a
  unfold storedCell writeTarget at h
  rw [resolve_addr] at h
  unfold writeByte bankWrite
  rw [resolve_addr]
  simp only [bankReadOnly_storeBank] at h ⊢
  cases hi : bankIndex (storeBank (visibleBank s.flags a)) a.toNat with
  | none => simp only [hi] at h; cases h
  | some i => simp only [hi] at h ⊢; cases h; rfl

/-- BANK_READ by the range of addresses with an index in the storage. -/
theorem bankRead_eq (k : BankKind) (a : Nat) (s : State) : bankRead k a s =
    if bankBase k ≤ a ∧ a < bankBase k + bankLength k then .ok (s.byteAt k (a - bankBase k))
    else .error (.bankIndexOutOfRange k a) := by
  unfold bankRead bankIndex
  by_cases h : bankBase k ≤ a ∧ a < bankBase k + bankLength k
  · rw [if_pos (by omega), if_pos h]
  · rw [if_neg (by omega), if_neg h]

/-- BANK_WRITE on a bank that is not a ROM, by the range of addresses with an index in the storage. -/
theorem bankWrite_eq {k : BankKind} (hk : bankReadOnly k = false) (a : Nat) (v : Byte) (s : State) :
    bankWrite k a v s =
      if bankBase k ≤ a ∧ a < bankBase k + bankLength k then
        .ok (s.setBank k ((s.bank k).write (a - bankBase k) v))
      else .error (.bankIndexOutOfRange k a) := by
  unfold bankWrite
  rw [hk]
  by_cases h : bankBase k ≤ a ∧ a < bankBase k + bankLength k
  · have hi : bankIndex k a = some (a - bankBase k) := if_pos (by omega)
    rw [hi, if_pos h]
    rfl
  · have hi : bankIndex k a = none := if_neg (by omega)
    rw [hi, if_neg h]
    rfl

/-- READ_BYTE changes nothing: it gives the visible bank's byte, or raises where the index is outside BASIC-ROM. -/
theorem readByte_cases (a : Addr) (s : State) :
    (¬ (s.flags.basicOn = true ∧ 0xC000 ≤ a.toNat ∧ a.toNat ≤ 0xCFFF) ∧
      readByte a s =
        .ok (s.byteAt (visibleBank s.flags a) (a.toNat - bankBase (visibleBank s.flags a))) s) ∨
    ((s.flags.basicOn = true ∧ 0xC000 ≤ a.toNat ∧ a.toNat ≤ 0xCFFF) ∧
      visibleBank s.flags a = .basicRom ∧
      readByte a s = .raised (.bankIndexOutOfRange .basicRom a.toNat) s) := by
  have hlt := a.isLt
  unfold readByte bankRead
  rw [resolve_addr]
  by_cases hb : s.flags.basicOn = true ∧ 0xC000 ≤ a.toNat ∧ a.toNat ≤ 0xCFFF
  · right
    have hv : visibleBank s.flags a = .basicRom := by
      unfold visibleBank
      rw [if_neg (by omega), if_pos (by omega), if_pos hb.1]
    refine ⟨hb, hv, ?_⟩
    simp only [hv, bankIndex, bankBase, bankLength]
    rw [if_neg (by omega)]
  · left
    refine ⟨hb, ?_⟩
    have hi : bankIndex (visibleBank s.flags a) a.toNat = some (a.toNat - bankBase (visibleBank s.flags a)) := by
      unfold bankIndex
      rw [if_pos]
      unfold visibleBank
      repeat' split
      all_goals try simp only [bankBase, bankLength]
      all_goals first
        | omega
        | next h1 h2 h3 =>
          have : ¬ (0xC000 ≤ a.toNat ∧ a.toNat ≤ 0xCFFF) := fun h => hb ⟨h3, h⟩
          omega
    simp only [hi]

theorem secondAddress_eq (a : Addr) (h : a ≠ 0xFFFF) : secondAddress a = .ok (a + 1) := if_neg h

theorem secondAddress_toNat {a : Addr} (h : a ≠ 0xFFFF) : (a + 1).toNat = a.toNat + 1 := by
  have h1 := a.isLt
  have h2 : a.toNat ≠ 0xFFFF := fun e => h (BitVec.eq_of_toNat_eq e)
  change (a.toNat + 1) % 65536 = a.toNat + 1
  omega

/-- The pair of byte writes below 0xFFFF: one write, then the other from the state the first leaves. -/
theorem writePair_ok {a : Addr} (h : a ≠ 0xFFFF) (b0 b1 : Byte) (s : State) :
    ∃ v0 s0 v1 s1, writeByte a b0 s = .ok v0 s0 ∧ writeByte (a + 1) b1 s0 = .ok v1 s1 ∧
      writePair a b0 b1 s = .ok (v0 && v1) s1 := by
  refine ⟨_, _, _, _, writeByte_ok a b0 s, writeByte_ok (a + 1) b1 _, ?_⟩
  unfold writePair
  rw [secondAddress_eq a h]
  simp only [writeByte_ok, Result.andThen]

theorem writePair_top (b0 b1 : Byte) (s : State) :
    writePair 0xFFFF b0 b1 s = .raised (.addressOutOfRange 0xFFFF) s := rfl

theorem readPair_top (s : State) : readPair 0xFFFF s = .raised (.addressOutOfRange 0xFFFF) s := rfl

/-- The pair of byte reads below 0xFFFF changes nothing, and raises what the first raising read raises. -/
theorem readPair_eq {a : Addr} (h : a ≠ 0xFFFF) (s : State) :
    readPair a s = (readByte a s).andThen fun b0 s0 => (readByte (a + 1) s0).andThen fun b1 s1 => .ok (b0, b1) s1 := by
  unfold readPair
  rw [secondAddress_eq a h]

/-- The pair of byte reads: it raises at 0xFFFF, or where one of its two reads leaves BASIC-ROM (the first such read
is reported), and else gives the two bytes; it changes nothing. -/
theorem readPair_cases (a : Addr) (s : State) :
    (a.toNat = 0xFFFF ∧ readPair a s = .raised (.addressOutOfRange 0xFFFF) s) ∨
    (a.toNat ≠ 0xFFFF ∧ ¬ (s.flags.basicOn = true ∧ 0xBFFF ≤ a.toNat ∧ a.toNat ≤ 0xCFFF) ∧
      ∃ b0 b1, readByte a s = .ok b0 s ∧ readByte (a + 1) s = .ok b1 s ∧ readPair a s = .ok (b0, b1) s) ∨
    (s.flags.basicOn = true ∧ a.toNat = 0xBFFF ∧ readPair a s = .raised (.bankIndexOutOfRange .basicRom 0xC000) s) ∨
    (s.flags.basicOn = true ∧ 0xC000 ≤ a.toNat ∧ a.toNat ≤ 0xCFFF ∧
      readPair a s = .raised (.bankIndexOutOfRange .basicRom a.toNat) s) := by
  by_cases ht : a = 0xFFFF
  · subst ht
    exact .inl ⟨rfl, readPair_top s⟩
  have hne : a.toNat ≠ 0xFFFF := fun e => ht (BitVec.eq_of_toNat_eq e)
  have hs := secondAddress_toNat ht
  rw [readPair_eq ht]
  rcases readByte_cases a s with ⟨h0, e0⟩ | ⟨h0, -, e0⟩
  · rcases readByte_cases (a + 1) s with ⟨h1, e1⟩ | ⟨h1, -, e1⟩
    · refine .inr (.inl ⟨hne, fun h => ?_, _, _, e0, e1, by rw [e0]; simp only [Result.andThen, e1]⟩)
      by_cases hb : a.toNat = 0xBFFF
      · exact h1 ⟨h.1, by omega, by omega⟩
      · exact h0 ⟨h.1, by omega, h.2.2⟩
    · have hb : a.toNat = 0xBFFF := by
        have : ¬ (0xC000 ≤ a.toNat ∧ a.toNat ≤ 0xCFFF) := fun h => h0 ⟨h1.1, h⟩
        omega
      refine .inr (.inr (.inl ⟨h1.1, hb, ?_⟩))
      rw [e0]
      simp only [Result.andThen, e1]
      rw [hs, hb]
  · refine .inr (.inr (.inr ⟨h0.1, h0.2.1, h0.2.2, ?_⟩))
    rw [e0]
    rfl

/-- Word assembly is concatenation with the high byte first (`00_scope.md` rule R8, `30_encoding.md` rule R84). -/
theorem wordOf_eq_append (h l : Byte) : wordOf h l = h ++ l := by
  ext i hi
  rw [← BitVec.getLsbD_eq_getElem, ← BitVec.getLsbD_eq_getElem]
  simp only [wordOf, BitVec.getLsbD_or, BitVec.getLsbD_shiftLeft, BitVec.getLsbD_setWidth, BitVec.getLsbD_append]
  by_cases h8 : i < 8
  · simp [h8, hi]
  · simp [h8, hi, BitVec.getLsbD_of_ge l i (by omega), show i - 8 < 16 by omega]

/-- A word is its high byte before its low byte. -/
theorem hiByte_append_loByte (w : Word) : hiByte w ++ loByte w = w := by
  ext i hi
  rw [← BitVec.getLsbD_eq_getElem, ← BitVec.getLsbD_eq_getElem]
  simp only [hiByte, loByte, BitVec.getLsbD_append, BitVec.getLsbD_extractLsb']
  by_cases h8 : i < 8
  · simp [h8]
  · simp [h8, show i - 8 < 8 by omega, show 8 + (i - 8) = i by omega]

theorem loByte_eq_setWidth (w : Word) : loByte w = w.setWidth 8 := by
  ext i hi
  simp [loByte]

theorem hiByte_eq_shift (w : Word) : hiByte w = (w >>> 8).setWidth 8 := by
  ext i hi
  simp [hiByte]

/-- The region of an address by the range it lies in. -/
theorem regionOf_eq (a : Addr) : regionOf a =
    if a.toNat ≤ 0x9FFF then .low else if a.toNat ≤ 0xCFFF then .basicWindow
    else if a.toNat ≤ 0xDFFF then .dWindow else .kernalWindow := by
  have hl := a.isLt
  have e : (a.extractLsb' 12 4).toNat = a.toNat / 4096 := by
    rw [BitVec.extractLsb'_toNat, Nat.shiftRight_eq_div_pow]
    omega
  unfold regionOf
  rw [e]
  have hc : a.toNat / 4096 < 16 := by omega
  generalize h : a.toNat / 4096 = c at hc
  interval_cases c <;> split_ifs <;> first | rfl | omega

/-- RESET's two writes land in RAM and leave the flags of latch value 7. -/
theorem resetWrites_eq (s : State) :
    resetWrites s = .ok () { s with
      ram := (s.ram.write 0x0000 0xFF).write 0x0001 0x07
      flags := { basicOn := true, chargenOn := false, ioOn := true, kernalOn := true } } := by
  have h0 : ∀ f, visibleBank f 0x0000 = .ram := fun f => visibleBank_low f (by decide)
  have h1 : ∀ f, visibleBank f latchAddr = .ram := fun f => visibleBank_low f (by decide)
  unfold resetWrites
  rw [writeByte_ok]
  simp only [Result.andThen, writeByte_ok, h0, h1]
  simp [storeBank, bankReadOnly, bankBase, State.store, State.bank, State.setBank, afterStore, latchAddr,
    State.derive, State.latchByte]
  decide

end Sys2Proof.Machine
end

