-- ==== Sys2Proof/Laws/Exec.lean ====
section
/-! SUPPORT. What an operation and a step can do, said once each: the answer of a faulted block, of each operation of
an accepting block, and the inversion of a step. -/

namespace Sys2Proof.Machine

theorem accept_faulted {s : State} {f : Fault} (h : s.fault = some f) (op : State → State) :
    s.accept op = s.respond (.fault (faultCode f)) := by
  unfold State.accept
  rw [h]

theorem accept_running {s : State} (h : s.fault = none) (op : State → State) : s.accept op = op s := by
  unfold State.accept
  rw [h]

/-- A faulted block answers its fault. -/
theorem exec_of_faulted (i : Instr) {s : State} {f : Fault} (h : s.fault = some f) :
    exec i s = .next (s.respond (.fault (faultCode f))) := by
  cases i <;> exact congrArg Host.Outcome.next (accept_faulted h _)

/-- Every operation answers a next state. -/
theorem exec_next (i : Instr) (s : State) : ∃ t, exec i s = .next t := by
  cases i <;> exact ⟨_, rfl⟩

theorem exec_readByte_running (a : Addr) {s : State} (h : s.fault = none) :
    exec (.readByte a) s = .next ((readByte a s).finish .byte) :=
  congrArg Host.Outcome.next (accept_running h _)

theorem exec_writeByte_running (a : Addr) (v : Byte) {s : State} (h : s.fault = none) :
    exec (.writeByte a v) s = .next ((writeByte a v s).finish .wrote) :=
  congrArg Host.Outcome.next (accept_running h _)

theorem exec_readWordLe_running (a : Addr) {s : State} (h : s.fault = none) :
    exec (.readWordLe a) s = .next ((readPair a s).finish fun p => .word (wordOf p.2 p.1)) :=
  congrArg Host.Outcome.next (accept_running h _)

theorem exec_readWordBe_running (a : Addr) {s : State} (h : s.fault = none) :
    exec (.readWordBe a) s = .next ((readPair a s).finish fun p => .word (wordOf p.1 p.2)) :=
  congrArg Host.Outcome.next (accept_running h _)

theorem exec_writeWordLe_running (a : Addr) (w : Word) {s : State} (h : s.fault = none) :
    exec (.writeWordLe a w) s = .next ((writePair a (loByte w) (hiByte w) s).finish .wrote) :=
  congrArg Host.Outcome.next (accept_running h _)

theorem exec_writeWordBe_running (a : Addr) (w : Word) {s : State} (h : s.fault = none) :
    exec (.writeWordBe a w) s = .next ((writePair a (hiByte w) (loByte w) s).finish .wrote) :=
  congrArg Host.Outcome.next (accept_running h _)

theorem exec_reset_running {s : State} (h : s.fault = none) :
    exec .reset s = .next ((resetWrites s).finish fun _ => .done) :=
  congrArg Host.Outcome.next (accept_running h _)

/-- The state a byte write leaves before its response: one cell stored, and the flags derived at the latch address. -/
def State.written (s : State) (a : Addr) (v : Byte) : State :=
  afterStore a (s.store (storeBank (visibleBank s.flags a)) (a.toNat - bankBase (storeBank (visibleBank s.flags a))) v)

theorem writeByte_written (a : Addr) (v : Byte) (s : State) :
    writeByte a v s = .ok (!bankReadOnly (visibleBank s.flags a)) (s.written a v) :=
  writeByte_ok a v s

section Written
variable (s : State) (a : Addr) (v : Byte)

@[simp] theorem State.written_fault : (s.written a v).fault = s.fault := by
  unfold State.written afterStore State.store; split <;> simp
@[simp] theorem State.written_requests : (s.written a v).requests = s.requests := by
  unfold State.written afterStore State.store; split <;> simp
@[simp] theorem State.written_responses : (s.written a v).responses = s.responses := by
  unfold State.written afterStore State.store; split <;> simp
@[simp] theorem State.written_cartA : (s.written a v).cartA = s.cartA := by
  unfold State.written afterStore State.store; split <;> simp
@[simp] theorem State.written_cartB : (s.written a v).cartB = s.cartB := by
  unfold State.written afterStore State.store; split <;> simp

theorem State.written_flags_other (h : a ≠ latchAddr) : (s.written a v).flags = s.flags := by
  unfold State.written afterStore State.store; rw [if_neg h]; simp

theorem State.written_latch : s.written latchAddr v = { s with ram := s.ram.write 1 v, flags := deriveFlags v } := by
  have h1 : visibleBank s.flags latchAddr = .ram := visibleBank_low _ (by decide)
  unfold State.written
  rw [h1]
  simp [storeBank, bankReadOnly, bankBase, State.store, State.bank, State.setBank, afterStore, latchAddr, State.derive,
    State.latchByte]

/-- The banks a byte write leaves. -/
theorem State.written_bank (k : BankKind) :
    (s.written a v).bank k =
      if k = storeBank (visibleBank s.flags a) then
        (s.bank k).write (a.toNat - bankBase (storeBank (visibleBank s.flags a))) v
      else s.bank k := by
  have key : (s.written a v).bank k = (s.store (storeBank (visibleBank s.flags a))
      (a.toNat - bankBase (storeBank (visibleBank s.flags a))) v).bank k := by
    unfold State.written afterStore; split <;> simp
  rw [key, State.store, State.setBank_bank]
  split
  · next h => rw [h]
  · rfl

/-- The bytes a byte write leaves. -/
theorem State.written_byteAt (k : BankKind) (j : Nat) :
    (s.written a v).byteAt k j =
      if k = storeBank (visibleBank s.flags a) ∧ j = a.toNat - bankBase (storeBank (visibleBank s.flags a)) then v
      else s.byteAt k j := by
  unfold State.byteAt
  rw [State.written_bank]
  by_cases hk : k = storeBank (visibleBank s.flags a)
  · rw [if_pos hk, Memory.read_write]
    simp only [hk, true_and]
  · rw [if_neg hk, if_neg (fun h => hk h.1)]

end Written

/-- A response changes nothing a byte write looks at. -/
theorem State.respond_written (s : State) (r : Response) (a : Addr) (v : Byte) :
    (s.respond r).written a v = (s.written a v).respond r := by
  have hset : ∀ k m, (s.respond r).setBank k m = (s.setBank k m).respond r := by intro k m; cases k <;> rfl
  unfold State.written afterStore State.store
  simp only [State.respond_flags, State.respond_bank]
  rw [hset]
  split <;> rfl

theorem State.written_flags (s : State) (a : Addr) (v : Byte) :
    (s.written a v).flags = if a = latchAddr then deriveFlags v else s.flags := by
  by_cases ha : a = latchAddr
  · subst ha; rw [State.written_latch, if_pos rfl]
  · rw [State.written_flags_other _ _ _ ha, if_neg ha]

/-- A byte write at one address leaves the visible bank of another, unless it stores the latch and the other lies in
a window. -/
theorem visibleBank_written (s : State) (a b : Addr) (v : Byte) (h : a = latchAddr → b.toNat ≤ 0x9FFF) :
    visibleBank (s.written a v).flags b = visibleBank s.flags b := by
  by_cases ha : a = latchAddr
  · rw [visibleBank_low _ (h ha), visibleBank_low _ (h ha)]
  · rw [State.written_flags_other _ _ _ ha]

theorem bankBase_storeBank_le (f : Flags) (a : Addr) : bankBase (storeBank (visibleBank f a)) ≤ a.toNat := by
  rcases storeBank_visibleBank f a with h | ⟨h, -, h', -⟩
  · rw [h]; exact Nat.zero_le _
  · rw [h]; exact h'

/-- Two states that agree in every bank and every other field are equal. -/
theorem State.ext_of_bank {s t : State} (hb : ∀ k, s.bank k = t.bank k) (hf : s.flags = t.flags)
    (hA : s.cartA = t.cartA) (hB : s.cartB = t.cartB) (hx : s.fault = t.fault) (hq : s.requests = t.requests)
    (hr : s.responses = t.responses) : s = t := by
  have h1 := hb .ram
  have h2 := hb .basicRom
  have h3 := hb .characterRom
  have h4 := hb .ioWindow
  have h5 := hb .kernalRom
  cases s
  cases t
  simp only [State.bank] at *
  simp [*]

theorem State.wf_iff (s : State) :
    s.wf = true ↔ (∀ k, (s.bank k).wf (bankLength k) = true) ∧ s.cartA = false ∧ s.cartB = false := by
  unfold State.wf State.banksWf State.cartsInert
  simp only [List.all_cons, List.all_nil, Bool.and_true, Bool.and_eq_true, Bool.not_eq_true']
  constructor
  · rintro ⟨⟨h1, h2, h3, h4, h5⟩, hA, hB⟩
    exact ⟨fun k => by cases k <;> assumption, hA, hB⟩
  · rintro ⟨h, hA, hB⟩
    exact ⟨⟨h _, h _, h _, h _, h _⟩, hA, hB⟩

/-- A byte write keeps the canonical form. -/
theorem State.wf_written {s : State} (h : s.wf = true) (a : Addr) (v : Byte) : (s.written a v).wf = true := by
  rw [State.wf_iff] at h ⊢
  refine ⟨fun k => ?_, by simpa using h.2.1, by simpa using h.2.2⟩
  rw [State.written_bank]
  split
  · next hk => subst hk; exact Memory.wf_write v (h.1 _) (storedCell_addr s.flags a).2
  · exact h.1 k

theorem run_zero (s : State) : Sys2Proof.core.run 0 s = .next s := rfl

/-- A run whose first step answers a next state goes on from there. -/
theorem run_succ_next (n : Nat) {s t : State} (h : step s = .next t) :
    Sys2Proof.core.run (n + 1) s = Sys2Proof.core.run n t := by
  have key : ∀ (M : Host.Core) (s t : M.State), M.step s = .next t → M.run (n + 1) s = M.run n t := by
    intro M s t h
    simp [Host.Core.run, h]
  exact key Sys2Proof.core s t h

/-- A run that answers a next state took a first step that did. -/
theorem run_succ_inv {n : Nat} {s t : State} (h : Sys2Proof.core.run (n + 1) s = .next t) :
    ∃ u, step s = .next u ∧ Sys2Proof.core.run n u = .next t := by
  have key : ∀ (M : Host.Core) (s t : M.State), M.run (n + 1) s = .next t →
      ∃ u, M.step s = .next u ∧ M.run n u = .next t := by
    intro M s t h
    cases hs : M.step s with
    | next u => exact ⟨u, rfl, by simpa [Host.Core.run, hs] using h⟩
    | fault f => simp [Host.Core.run, hs] at h
    | refused r => simp [Host.Core.run, hs] at h
  exact key Sys2Proof.core s t h

/-- What a word write does, by its two bytes in the order of their addresses. -/
theorem writePair_cases (a : Addr) (b0 b1 : Byte) (s : State) :
    (a.toNat = 0xFFFF ∧ writePair a b0 b1 s = .raised (.addressOutOfRange 0xFFFF) s) ∨
    (a.toNat ≠ 0xFFFF ∧ writePair a b0 b1 s =
      .ok (!bankReadOnly (visibleBank s.flags a) && !bankReadOnly (visibleBank (s.written a b0).flags (a + 1)))
        ((s.written a b0).written (a + 1) b1)) := by
  by_cases ht : a = 0xFFFF
  · subst ht
    exact .inl ⟨rfl, writePair_top b0 b1 s⟩
  · refine .inr ⟨fun e => ht (BitVec.eq_of_toNat_eq e), ?_⟩
    obtain ⟨v0, s0, v1, s1, h0, h1, h2⟩ := writePair_ok ht b0 b1 s
    rw [writeByte_written] at h0 h1
    cases h0
    cases h1
    exact h2

/-- Everything an operation can do when it answers a next state: a faulted block answers its fault; else it raises,
answers without storing (the reads), stores one cell (WRITE_BYTE), two cells (the word writes below 0xFFFF), or the two
cells of RESET. -/
theorem exec_cases {i : Instr} {s t : State} (h : exec i s = .next t) :
    (∃ f, s.fault = some f ∧ t = s.respond (.fault (faultCode f))) ∨
    (s.fault = none ∧
      ((∃ f, t = s.raise f) ∨
      ((∃ a, i = .readByte a ∨ i = .readWordLe a ∨ i = .readWordBe a) ∧ ∃ r, t = s.respond r) ∨
      (∃ a v, i = .writeByte a v ∧
        t = (s.written a v).respond (.wrote (!bankReadOnly (visibleBank s.flags a)))) ∨
      (∃ a w b0 b1 r, (i = .writeWordLe a w ∧ b0 = loByte w ∧ b1 = hiByte w ∨
          i = .writeWordBe a w ∧ b0 = hiByte w ∧ b1 = loByte w) ∧ a.toNat ≠ 0xFFFF ∧
        t = ((s.written a b0).written (a + 1) b1).respond (.wrote r)) ∨
      (i = .reset ∧ t = ((s.written 0x0000 0xFF).written latchAddr 0x07).respond .done))) := by
  cases hf : s.fault with
  | some f =>
    rw [exec_of_faulted i hf] at h
    cases h
    exact .inl ⟨f, rfl, rfl⟩
  | none =>
    refine .inr ⟨rfl, ?_⟩
    cases i with
    | readByte a =>
      rw [exec_readByte_running _ hf] at h
      cases h
      rcases readByte_cases a s with ⟨-, e⟩ | ⟨-, -, e⟩ <;> rw [e]
      · exact .inr (.inl ⟨⟨a, .inl rfl⟩, _, rfl⟩)
      · exact .inl ⟨_, rfl⟩
    | readWordLe a =>
      rw [exec_readWordLe_running _ hf] at h
      cases h
      rcases readPair_cases a s with ⟨-, e⟩ | ⟨-, -, _, _, -, -, e⟩ | ⟨-, -, e⟩ | ⟨-, -, -, e⟩ <;> rw [e]
      · exact .inl ⟨_, rfl⟩
      · exact .inr (.inl ⟨⟨a, .inr (.inl rfl)⟩, _, rfl⟩)
      · exact .inl ⟨_, rfl⟩
      · exact .inl ⟨_, rfl⟩
    | readWordBe a =>
      rw [exec_readWordBe_running _ hf] at h
      cases h
      rcases readPair_cases a s with ⟨-, e⟩ | ⟨-, -, _, _, -, -, e⟩ | ⟨-, -, e⟩ | ⟨-, -, -, e⟩ <;> rw [e]
      · exact .inl ⟨_, rfl⟩
      · exact .inr (.inl ⟨⟨a, .inr (.inr rfl)⟩, _, rfl⟩)
      · exact .inl ⟨_, rfl⟩
      · exact .inl ⟨_, rfl⟩
    | writeByte a v =>
      rw [exec_writeByte_running _ _ hf, writeByte_written] at h
      cases h
      exact .inr (.inr (.inl ⟨a, v, rfl, rfl⟩))
    | writeWordLe a w =>
      rw [exec_writeWordLe_running _ _ hf] at h
      cases h
      rcases writePair_cases a (loByte w) (hiByte w) s with ⟨-, e⟩ | ⟨hne, e⟩ <;> rw [e]
      · exact .inl ⟨_, rfl⟩
      · exact .inr (.inr (.inr (.inl ⟨a, w, _, _, _, .inl ⟨rfl, rfl, rfl⟩, hne, rfl⟩)))
    | writeWordBe a w =>
      rw [exec_writeWordBe_running _ _ hf] at h
      cases h
      rcases writePair_cases a (hiByte w) (loByte w) s with ⟨-, e⟩ | ⟨hne, e⟩ <;> rw [e]
      · exact .inl ⟨_, rfl⟩
      · exact .inr (.inr (.inr (.inl ⟨a, w, _, _, _, .inr ⟨rfl, rfl, rfl⟩, hne, rfl⟩)))
    | reset =>
      rw [exec_reset_running hf] at h
      cases h
      refine .inr (.inr (.inr (.inr ⟨rfl, ?_⟩)))
      unfold resetWrites
      rw [writeByte_written]
      simp only [Result.andThen, writeByte_written]
      rfl

/-- A step that answers a next state either had nothing pending or ran a decoded operation. -/
theorem step_cases {s t : State} (h : step s = .next t) :
    (s.requests = [] ∧ t = s) ∨
      ∃ w rest i, s.requests = w :: rest ∧ decode w = .ok i ∧ exec i { s with requests := rest } = .next t := by
  unfold step State.takeRequest at h
  cases hr : s.requests with
  | nil => rw [hr] at h; exact .inl ⟨rfl, by simpa using h.symm⟩
  | cons w rest =>
    rw [hr] at h
    simp only at h
    cases hd : decode w with
    | error e => rw [hd] at h; cases h
    | ok i => rw [hd] at h; exact .inr ⟨w, rest, i, rfl, hd, h⟩

end Sys2Proof.Machine
end

