-- ==== Sys2Proof/Laws/PerInstr.lean ====
section
/-! SUPPORT. Statements made operation by operation, about the operation as syntax. -/

namespace Sys2Proof.Laws

/-- The request word of an operation carries exactly the operation's three fields. -/
def RequestWord.Statement (i : Instr) : Prop := fieldsOf (encode i) = i.fields

theorem RequestWord.readByte (a : Addr) : RequestWord.Statement (.readByte a) := fieldsOf_packFields _
theorem RequestWord.writeByte (a : Addr) (v : Byte) : RequestWord.Statement (.writeByte a v) := fieldsOf_packFields _
theorem RequestWord.readWordLe (a : Addr) : RequestWord.Statement (.readWordLe a) := fieldsOf_packFields _
theorem RequestWord.readWordBe (a : Addr) : RequestWord.Statement (.readWordBe a) := fieldsOf_packFields _
theorem RequestWord.writeWordLe (a : Addr) (w : Word) : RequestWord.Statement (.writeWordLe a w) :=
  fieldsOf_packFields _
theorem RequestWord.writeWordBe (a : Addr) (w : Word) : RequestWord.Statement (.writeWordBe a w) :=
  fieldsOf_packFields _
theorem RequestWord.reset : RequestWord.Statement .reset := fieldsOf_packFields _

end Sys2Proof.Laws
end

