-- ==== Sys2Proof/Laws/Run.lean ====
section
/-! SUPPORT. What one request does to the queue and the responses, and how a run unfolds, said once each. -/

namespace Sys2Proof.Machine

@[simp] theorem RunEnd.state_completed (s : State) : (RunEnd.completed s).state = s := rfl
@[simp] theorem RunEnd.state_faulted (s : State) : (RunEnd.faulted s).state = s := rfl
@[simp] theorem RunEnd.state_refused (why : Refusal) (s : State) : (RunEnd.refused why s).state = s := rfl

theorem isFaultResponse_iff (r : Response) : isFaultResponse r = true ↔ ∃ code, r = .fault code := by
  cases r <;> simp [isFaultResponse]

/-- `t` has one response more than `s`: the code of the fault `t` holds, or, when it holds none, a response that is no
fault. -/
def OneResponse (s t : State) : Prop :=
  (∃ f, t.fault = some f ∧ t.responses = s.responses ++ [.fault (faultCode f)]) ∨
    (t.fault = none ∧ ∃ r, isFaultResponse r = false ∧ t.responses = s.responses ++ [r])

/-- The end of an operation's pseudocode leaves the queue and gives one response, if the pseudocode itself gave none
and reached its end with no fault. -/
theorem finish_oneResponse {α : Type} {s : State} {r : Result α} {response : α → Response}
    (hn : ∀ v, isFaultResponse (response v) = false)
    (hok : ∀ v u, r = .ok v u → u.fault = none ∧ u.requests = s.requests ∧ u.responses = s.responses)
    (hraised : ∀ f u, r = .raised f u → u.requests = s.requests ∧ u.responses = s.responses) :
    (r.finish response).requests = s.requests ∧ OneResponse s (r.finish response) := by
  cases r with
  | ok v u =>
    obtain ⟨hf, hq, hr⟩ := hok v u rfl
    exact ⟨hq, .inr ⟨hf, response v, hn v, congrArg (· ++ [response v]) hr⟩⟩
  | raised f u =>
    obtain ⟨hq, hr⟩ := hraised f u rfl
    exact ⟨hq, .inl ⟨f, rfl, congrArg (· ++ [Response.fault (faultCode f)]) hr⟩⟩

/-- An operation leaves the queue and gives one response. -/
theorem exec_responds {i : Instr} {s t : State} (h : exec i s = .next t) :
    t.requests = s.requests ∧ OneResponse s t := by
  cases hf : s.fault with
  | some f =>
    rw [exec_of_faulted i hf] at h
    cases h
    exact ⟨rfl, .inl ⟨f, hf, rfl⟩⟩
  | none =>
    cases i with
    | readByte a =>
      rw [exec_readByte_running _ hf] at h
      cases h
      refine finish_oneResponse (fun _ => rfl) (fun v u e => ?_) (fun f u e => ?_) <;>
        rcases readByte_cases a s with ⟨-, h'⟩ | ⟨-, -, h'⟩ <;> rw [h'] at e <;> cases e <;> simp [hf]
    | readWordLe a =>
      rw [exec_readWordLe_running _ hf] at h
      cases h
      refine finish_oneResponse (fun _ => rfl) (fun v u e => ?_) (fun f u e => ?_) <;>
        rcases readPair_cases a s with ⟨-, h'⟩ | ⟨-, -, _, _, -, -, h'⟩ | ⟨-, -, h'⟩ | ⟨-, -, -, h'⟩ <;>
        rw [h'] at e <;> cases e <;> simp [hf]
    | readWordBe a =>
      rw [exec_readWordBe_running _ hf] at h
      cases h
      refine finish_oneResponse (fun _ => rfl) (fun v u e => ?_) (fun f u e => ?_) <;>
        rcases readPair_cases a s with ⟨-, h'⟩ | ⟨-, -, _, _, -, -, h'⟩ | ⟨-, -, h'⟩ | ⟨-, -, -, h'⟩ <;>
        rw [h'] at e <;> cases e <;> simp [hf]
    | writeByte a v =>
      rw [exec_writeByte_running _ _ hf] at h
      cases h
      refine finish_oneResponse (fun _ => rfl) (fun v u e => ?_) (fun f u e => ?_) <;>
        (rw [writeByte_written] at e; cases e <;> simp [hf])
    | writeWordLe a w =>
      rw [exec_writeWordLe_running _ _ hf] at h
      cases h
      refine finish_oneResponse (fun _ => rfl) (fun v u e => ?_) (fun f u e => ?_) <;>
        rcases writePair_cases a (loByte w) (hiByte w) s with ⟨-, h'⟩ | ⟨-, h'⟩ <;>
        rw [h'] at e <;> cases e <;> simp [hf]
    | writeWordBe a w =>
      rw [exec_writeWordBe_running _ _ hf] at h
      cases h
      refine finish_oneResponse (fun _ => rfl) (fun v u e => ?_) (fun f u e => ?_) <;>
        rcases writePair_cases a (hiByte w) (loByte w) s with ⟨-, h'⟩ | ⟨-, h'⟩ <;>
        rw [h'] at e <;> cases e <;> simp [hf]
    | reset =>
      rw [exec_reset_running hf] at h
      cases h
      refine finish_oneResponse (fun _ => rfl) (fun v u e => ?_) (fun f u e => ?_) <;>
        (unfold resetWrites at e
         rw [writeByte_written] at e
         simp only [Result.andThen, writeByte_written] at e
         cases e <;> simp [hf])

/-- Everything a step does with a pending word: it refuses a reserved one, or takes it and gives one response. -/
theorem step_request {s : State} {w : ReqWord} {rest : List ReqWord} (hq : s.requests = w :: rest) :
    (∃ why, decode w = .error why ∧ step s = .refused (.reservedRequest why)) ∨
      ∃ t, (∃ i, decode w = .ok i) ∧ step s = .next t ∧ t.requests = rest ∧ OneResponse s t := by
  unfold step State.takeRequest
  rw [hq]
  cases hd : decode w with
  | error why => exact .inl ⟨why, rfl, by simp only [hd]⟩
  | ok i =>
    obtain ⟨t, ht⟩ := exec_next i { s with requests := rest }
    obtain ⟨hr, hresp⟩ := exec_responds ht
    exact .inr ⟨t, ⟨i, rfl⟩, by simp only [hd, ht], hr, hresp⟩

theorem State.answeredFault_of_append {t : State} {rs : List Response} {r : Response} (h : t.responses = rs ++ [r]) :
    t.answeredFault = isFaultResponse r := by
  simp [State.answeredFault, h]

theorem runFor_zero (s : State) : s.runFor 0 = .completed s := rfl

theorem runFor_refused {n : Nat} {s : State} {why : Refusal} (h : step s = .refused why) :
    s.runFor (n + 1) = .refused why s := by
  simp only [State.runFor, h]

theorem runFor_faulted {n : Nat} {s t : State} (h : step s = .next t) (hf : t.answeredFault = true) :
    s.runFor (n + 1) = .faulted t := by
  simp only [State.runFor, h, hf, if_true]

theorem runFor_next {n : Nat} {s t : State} (h : step s = .next t) (hf : t.answeredFault = false) :
    s.runFor (n + 1) = t.runFor n := by
  simp [State.runFor, h, hf]

/-- One request of a run, by what the step on it does: the run ends at a reserved word, ends at a response
`Fault(code)`, or goes on from the state the step leaves. -/
theorem run_cons {s : State} {w : ReqWord} {rest : List ReqWord} (hq : s.requests = w :: rest) :
    (∃ why, decode w = .error why ∧ s.run = .refused (.reservedRequest why) s) ∨
    (∃ t f, step s = .next t ∧ t.requests = rest ∧ t.fault = some f ∧
      t.responses = s.responses ++ [.fault (faultCode f)] ∧ s.run = .faulted t) ∨
    (∃ t r, step s = .next t ∧ t.requests = rest ∧ t.fault = none ∧ isFaultResponse r = false ∧
      t.responses = s.responses ++ [r] ∧ s.run = t.run) := by
  have hn : s.run = s.runFor (rest.length + 1) := by rw [State.run, hq]; rfl
  rw [hn]
  rcases step_request hq with ⟨why, hd, hs⟩ | ⟨t, -, hs, hr, ⟨f, hf, hresp⟩ | ⟨hf, r, hnf, hresp⟩⟩
  · exact .inl ⟨why, hd, runFor_refused hs⟩
  · exact .inr (.inl ⟨t, f, hs, hr, hf, hresp, runFor_faulted hs (State.answeredFault_of_append hresp)⟩)
  · refine .inr (.inr ⟨t, r, hs, hr, hf, hnf, hresp, ?_⟩)
    rw [runFor_next hs ((State.answeredFault_of_append hresp).trans hnf), State.run, hr]

theorem run_nil {s : State} (hq : s.requests = []) : s.run = .completed s := by
  rw [State.run, hq]
  rfl

end Sys2Proof.Machine
end

