-- ==== Sys2Proof/Machine/Text.lean ====
section
/-! DEFINITION. The textual syntax of operations and results (spec `30_encoding.md` rule R91, log 23). It is
presentation only: no step reads it. -/

namespace Sys2Proof.Machine

/-- One hexadecimal digit, a capital letter above 9. -/
def hexDigit (n : Nat) : Char := ("0123456789ABCDEF".toList).getD n '?'

/-- The low `width` hexadecimal digits of a number. -/
def hexDigits : Nat → Nat → List Char
  | 0, _ => []
  | width + 1, n => hexDigits width (n / 16) ++ [hexDigit (n % 16)]

/-- `0x` and the digits. -/
def hexText (width n : Nat) : String := "0x" ++ String.ofList (hexDigits width n)

/-- An operation: its mnemonic, then its operands in the order of rule R85, separated by commas. -/
def instrText (i : Instr) : String :=
  match i with
  | .readByte a => "READ_BYTE " ++ hexText 4 a.toNat
  | .writeByte a v => "WRITE_BYTE " ++ hexText 4 a.toNat ++ ", " ++ hexText 2 v.toNat
  | .readWordLe a => "READ_WORD_LE " ++ hexText 4 a.toNat
  | .readWordBe a => "READ_WORD_BE " ++ hexText 4 a.toNat
  | .writeWordLe a w => "WRITE_WORD_LE " ++ hexText 4 a.toNat ++ ", " ++ hexText 4 w.toNat
  | .writeWordBe a w => "WRITE_WORD_BE " ++ hexText 4 a.toNat ++ ", " ++ hexText 4 w.toNat
  | .reset => "RESET"

/-- A result as it is written after the arrow; `Done` has none, and a fault is written with its code. -/
def resultText (r : Response) : Option String :=
  match r with
  | .byte b => some (hexText 2 b.toNat)
  | .word w => some (hexText 4 w.toNat)
  | .wrote visible => some (if visible then "true" else "false")
  | .done => none
  | .fault code => some ("Fault(" ++ String.ofList (hexDigits 1 code) ++ ")")

/-- An operation with its result. -/
def exchangeText (i : Instr) (r : Response) : String :=
  match resultText r with
  | some t => instrText i ++ " -> " ++ t
  | none => instrText i

end Sys2Proof.Machine
end

