-- ==== Sys2Proof/Tests/Slice0.lean ====
section
/-! SUPPORT. The model's own small tests. Every expected result is from the spec (`95_test_vectors.md`, the vector is
named beside it) or from the rule named; and for each obligation with hypotheses one theorem gives states and operands
that meet them. -/

namespace Sys2Proof.Tests

open Sys2Proof.Machine Sys2Proof.Claims

/-! ## Helpers -/

/-- The next state, or the state itself when there is none. -/
def after (i : Instr) (s : State) : State :=
  match exec i s with
  | .next t => t
  | .fault _ => s
  | .refused _ => s

/-- The response an operation gets. -/
def answer (i : Instr) (s : State) : Option Response := (after i s).responses.getLast?

/-- The bytes of test configuration TC that the tests touch, after RESET. -/
def tc : State :=
  { State.reset with
    ram := [(0, 0xFF#8), (1, 0x07#8), (2, 0xEE#8), (0xC000, 0xEE#8), (0xD000, 0xEE#8), (0xFFFF, 0xEE#8)]
    basic := [(0, 0xB0#8), (0x1FFE, 0xAE#8), (0x1FFF, 0xAF#8)]
    char := [(0, 0xC0#8), (0x20, 0xE0#8)]
    io := [(0, 0xDD#8), (0x20, 0xDD#8), (0xFFF, 0xDD#8)]
    kernal := [(0, 0xE0#8), (0x1FFE, 0xDE#8), (0x1FFF, 0xDF#8)] }

/-- `tc` under a latch byte. -/
def latched (v : Byte) : State := { tc with ram := tc.ram.write 1 v, flags := deriveFlags v }

/-- `tc` with a fault. -/
def broken (f : Fault) : State := { tc with fault := some f }

/-- `tc` with flags no latch value gives (program P6). -/
def bothOn : State := { tc with flags := { basicOn := false, chargenOn := true, ioOn := true, kernalOn := false } }

theorem exec_after (i : Instr) (s : State) : exec i s = .next (after i s) := by cases i <;> rfl

/-! ## Decoding: words written out from rules R86 and R87, `op` then `addr` then `data` -/

theorem test_decode_readByte :
    decode 0b00000000_1110000000000000_0000000000000000#40 = .ok (.readByte 0xE000) := by decide
theorem test_decode_writeByte :
    decode 0b00000001_1101000000100000_0000000010000001#40 = .ok (.writeByte 0xD020 0x81) := by decide
theorem test_decode_readWordLe :
    decode 0b00000010_0001000000000001_0000000000000000#40 = .ok (.readWordLe 0x1001) := by decide
theorem test_decode_readWordBe :
    decode 0b00000011_1111111111111110_0000000000000000#40 = .ok (.readWordBe 0xFFFE) := by decide
theorem test_decode_writeWordLe :
    decode 0b00000100_0001000000000000_1011111011101111#40 = .ok (.writeWordLe 0x1000 0xBEEF) := by decide
theorem test_decode_writeWordBe :
    decode 0b00000101_0001000000000010_1011111011101111#40 = .ok (.writeWordBe 0x1002 0xBEEF) := by decide
theorem test_decode_reset :
    decode 0b00000110_0000000000000000_0000000000000000#40 = .ok .reset := by decide
/-- EN1 to EN7. -/
theorem test_encode_listed :
    [encode (.readByte 0xE000), encode (setLatch 0x05), encode (.readWordLe 0x1000), encode (.readWordBe 0xFFFE),
      encode (.writeWordLe 0x1000 0xBEEF), encode (.writeWordBe 0x1002 0xBEEF), encode .reset] =
    [0x00E0000000#40, 0x0100010005#40, 0x0210000000#40, 0x03FFFE0000#40, 0x041000BEEF#40, 0x051002BEEF#40,
      0x0600000000#40] := by decide
theorem test_decodeTableWord :
    decodeTableWord 40 0x0100010005 = some (.writeByte 1 5) ∧ decodeTableWord 40 0x0700000000 = none ∧
      decodeTableWord 40 0x10000000000 = none := by decide
theorem test_withFetchWord_runs :
    ∃ t, step (State.reset.withFetchWord 40 0x0100010005) = .next t ∧ t.ram = [(0, 0xFF#8), (1, 0x05#8)] ∧
      t.requests = [] := ⟨_, rfl, by decide, by decide⟩

/-! ## Well-formed words: an ill-formed word for each check (EN8 to EN11) -/

theorem test_wf_refuses_reserved_opcode : ReqWord.wellFormed 0x0700000000#40 = false := by decide
theorem test_wf_refuses_data_of_read :
    [0x00E0000001#40, 0x0210000001#40, 0x0310008000#40].map ReqWord.wellFormed = [false, false, false] := by decide
theorem test_wf_refuses_upper_data_of_writeByte : ReqWord.wellFormed 0x0100010105#40 = false := by decide
theorem test_wf_refuses_operands_of_reset :
    [0x0600010000#40, 0x0600000001#40].map ReqWord.wellFormed = [false, false] := by decide
theorem test_wf_accepts_an_operation : ReqWord.wellFormed 0x041000BEEF#40 = true := by decide

/-! ## One step each -/

/-- BY4, BY5, BY8, BY9, BY10, BY11, BY12. -/
theorem test_readByte_visible_bank :
    [answer (.readByte 0xA000) tc, answer (.readByte 0xBFFF) tc, answer (.readByte 0xD000) tc,
      answer (.readByte 0xD000) (latched 0x03), answer (.readByte 0xD000) (latched 0x04),
      answer (.readByte 0xFFFF) tc, answer (.readByte 0xFFFF) (latched 0x05)] =
    [some (.byte 0xB0), some (.byte 0xAF), some (.byte 0xDD), some (.byte 0xC0), some (.byte 0xEE),
      some (.byte 0xDF), some (.byte 0xEE)] := by decide
/-- BY6 and BY7. -/
theorem test_readByte_past_basic :
    answer (.readByte 0xC000) tc = some (.fault 3) ∧
      (after (.readByte 0xC000) tc).fault = some (.bankIndexOutOfRange .basicRom 0xC000) ∧
      answer (.readByte 0xC000) (latched 0x06) = some (.byte 0xEE) := by decide
/-- BY14, BY15, BY16, BY17, BY19. -/
theorem test_writeByte_target :
    answer (.writeByte 0xA000 0x99) tc = some (.wrote false) ∧ (after (.writeByte 0xA000 0x99) tc).ram.read 0xA000 = 0x99 ∧
    answer (.writeByte 0xC000 0x5A) tc = some (.wrote false) ∧ (after (.writeByte 0xC000 0x5A) tc).ram.read 0xC000 = 0x5A ∧
    answer (.writeByte 0xD020 0x01) tc = some (.wrote true) ∧ (after (.writeByte 0xD020 0x01) tc).io.read 0x20 = 0x01 ∧
    answer (.writeByte 0xD020 0x33) (latched 0x03) = some (.wrote false) ∧
    (after (.writeByte 0xD020 0x33) (latched 0x03)).ram.read 0xD020 = 0x33 ∧
    answer (.writeByte 0xFFFF 0x77) tc = some (.wrote false) := by decide
/-- BY20 and BY21. -/
theorem test_writeByte_latch :
    answer (.writeByte 0x0001 0xFD) tc = some (.wrote true) ∧ (after (.writeByte 0x0001 0xFD) tc).ram.read 1 = 0xFD ∧
    (after (.writeByte 0x0001 0xFD) tc).flags = ⟨false, false, true, false⟩ ∧
    (after (.writeByte 0x0000 0x00) tc).flags = tc.flags := by decide
/-- W12, W14, W16, W19. -/
theorem test_readWordLe :
    [answer (.readWordLe 0xFFFE) tc, answer (.readWordLe 0xFFFF) tc, answer (.readWordLe 0xBFFE) tc,
      answer (.readWordLe 0x0001) tc] =
    [some (.word 0xDFDE), some (.fault 2), some (.word 0xAFAE), some (.word 0xEE07)] := by decide
/-- W17. -/
theorem test_readWordLe_second_byte_past_basic :
    (after (.readWordLe 0xBFFF) tc).fault = some (.bankIndexOutOfRange .basicRom 0xC000) := by decide
/-- W13, W18. -/
theorem test_readWordBe :
    [answer (.readWordBe 0xFFFE) tc, answer (.readWordBe 0xCFFF) tc] = [some (.word 0xDEDF), some (.fault 3)] := by
  decide
/-- W5, W6. -/
theorem test_writeWordLe_straddles :
    answer (.writeWordLe 0x9FFF 0x1234) tc = some (.wrote false) ∧
    (after (.writeWordLe 0x9FFF 0x1234) tc).ram.read 0x9FFF = 0x34 ∧
    (after (.writeWordLe 0x9FFF 0x1234) tc).ram.read 0xA000 = 0x12 ∧
    answer (.writeWordLe 0xDFFF 0xA1B2) tc = some (.wrote false) ∧
    (after (.writeWordLe 0xDFFF 0xA1B2) tc).io.read 0xFFF = 0xB2 ∧
    (after (.writeWordLe 0xDFFF 0xA1B2) tc).ram.read 0xE000 = 0xA1 := by decide
/-- W9, W10. -/
theorem test_writeWordLe_over_latch :
    (after (.writeWordLe 0x0000 0x062F) tc).flags = ⟨false, false, true, true⟩ ∧
    (after (.writeWordLe 0x0001 0xAB04) tc).flags = ⟨false, false, false, false⟩ ∧
    answer (.readWordLe 0x0001) (after (.writeWordLe 0x0001 0xAB04) tc) = some (.word 0xAB04) := by decide
/-- W4, W11. -/
theorem test_writeWordBe :
    (after (.writeWordBe 0x1002 0xBEEF) tc).ram.read 0x1002 = 0xBE ∧
    (after (.writeWordBe 0x1002 0xBEEF) tc).ram.read 0x1003 = 0xEF ∧
    (after (.writeWordBe 0x0000 0x1205) tc).flags = ⟨false, false, true, false⟩ := by decide
/-- W15. -/
theorem test_writeWordBe_top :
    after (.writeWordBe 0xFFFF 0x1234) tc = faulted tc (.addressOutOfRange 0xFFFF) 2 := by decide
/-- X2, from flags no latch value gives. -/
theorem test_reset_from_any_flags :
    (after .reset bothOn).flags = ⟨true, false, true, true⟩ ∧ (after .reset bothOn).ram = tc.ram ∧
      answer .reset bothOn = some .done := by decide
/-- X5: RESET does not clear a fault. -/
theorem test_reset_of_faulted_block :
    after .reset (broken (.bankIndexOutOfRange .basicRom 0xC000)) =
      answered (broken (.bankIndexOutOfRange .basicRom 0xC000)) (.fault 3) := by decide
/-- P4 from step 6: the run ends at step 7, and RESET is not taken. -/
theorem test_run_ends_at_first_fault :
    ∃ t, tc.runProgram [.readByte 0xBFFF, .readByte 0xC000, .reset] = .faulted t ∧
      t.responses = [.byte 0xAF, .fault 3] ∧ t.requests = [0x0600000000#40] := ⟨_, rfl, by decide, by decide⟩
/-- Rules R89 and R192: the run ends at the reserved word. -/
theorem test_run_ends_at_reserved_word :
    ∃ t, (tc.issue [0x0600000000#40, 0x0700000000#40]).run = .refused (.reservedRequest (.reservedOpcode 0x07)) t ∧
      t.responses = [.done] ∧ t.requests = [0x0700000000#40] := ⟨_, rfl, by decide, by decide⟩
/-- Rule R91's forms and rule R82's numbers. -/
theorem test_text_and_numbers :
    exchangeText (.writeByte 0xA000 0x99) (.wrote false) = "WRITE_BYTE 0xA000, 0x99 -> false" ∧
    instrText (.writeWordBe 0x1002 0xBEEF) = "WRITE_WORD_BE 0x1002, 0xBEEF" ∧
    [BankKind.ram, .basicRom, .characterRom, .ioWindow, .kernalRom].map bankNumber = [0, 1, 2, 3, 4] := by decide
/-- Rule R154. -/
theorem test_construct_refuses_short_image :
    wrongImage { basicImage := [], charImage := [], kernalImage := [], ramInit := [], ioInit := [],
                 flagsInit := tc.flags } = some .ram := by decide

/-! ## Witnesses: states and operands that meet each obligation's hypotheses, at the boundaries of its clauses -/

theorem witness_DecodedWordsEncodeToThemselves :
    decode 0x0100010005#40 = .ok (.writeByte 1 5) ∧ decode 0x05FFFFFFFF#40 = .ok (.writeWordBe 0xFFFF 0xFFFF) := by decide

theorem witness_StepRunsTheDecodedOperation :
    ({ tc with requests := [0x0600000000#40, 0x0700000000#40] } : State).requests =
      0x0600000000#40 :: [0x0700000000#40] ∧ decode 0x0600000000#40 = .ok .reset := by decide

theorem witness_FetchedTableWordRuns : decodeTableWord 40 0x05FFFFFFFF = some (.writeWordBe 0xFFFF 0xFFFF) := by decide

theorem witness_StepRefusesExactlyReservedWords :
    State.reset.requests = [] ∧
    (({ tc with requests := [0x0600000000#40] } : State).requests = 0x0600000000#40 :: [] ∧
      ReqWord.wellFormed 0x0600000000#40 = true) ∧
    ({ tc with requests := [0x0700000000#40] } : State).requests = 0x0700000000#40 :: [] ∧
      ReqWord.wellFormed 0x0700000000#40 = false := by decide

theorem witness_BankWriteStoresOrRaises :
    writeTarget tc.flags 0xFFFF = .ok .ram ∧ writeTarget tc.flags 0xD000 = .ok .ioWindow ∧ tc.fault = none ∧
      exec (.readByte 0xC000) tc = .next (after (.readByte 0xC000) tc) :=
  ⟨by decide, by decide, by decide, exec_after _ _⟩

theorem witness_ResolveFollowsTheDecodingTable :
    resolve tc.flags 0x9FFF = .ok .ram ∧
    (resolve tc.flags 0xA000 = .ok .basicRom ∧ resolve tc.flags 0xCFFF = .ok .basicRom ∧ tc.flags.basicOn = true) ∧
    (resolve (deriveFlags 6) 0xA000 = .ok .ram ∧ resolve (deriveFlags 6) 0xCFFF = .ok .ram) ∧
    (resolve bothOn.flags 0xD000 = .ok .characterRom ∧ resolve bothOn.flags 0xDFFF = .ok .characterRom) ∧
    (resolve tc.flags 0xD000 = .ok .ioWindow ∧ resolve tc.flags 0xDFFF = .ok .ioWindow) ∧
    (resolve (deriveFlags 4) 0xD000 = .ok .ram ∧ resolve (deriveFlags 4) 0xDFFF = .ok .ram) ∧
    (resolve tc.flags 0xE000 = .ok .kernalRom ∧ resolve tc.flags 0xFFFF = .ok .kernalRom) ∧
    (resolve (deriveFlags 5) 0xE000 = .ok .ram ∧ resolve (deriveFlags 5) 0xFFFF = .ok .ram) ∧
    resolve tc.flags 0x10000 = .error (.addressOutOfRange 0x10000) := by decide

theorem witness_WriteTargetRedirectsRomsToRam :
    resolve tc.flags 0xA000 = .ok .basicRom ∧ resolve bothOn.flags 0xD000 = .ok .characterRom ∧
    resolve tc.flags 0xFFFF = .ok .kernalRom ∧ resolve tc.flags 0x9FFF = .ok .ram ∧
    resolve tc.flags 0xDFFF = .ok .ioWindow ∧
    resolve tc.flags 0x10000 = .error (.addressOutOfRange 0x10000) := by decide

theorem witness_RegionFieldSelectsTheBank :
    [regionOf 0x0000, regionOf 0x9FFF, regionOf 0xA000, regionOf 0xCFFF, regionOf 0xD000, regionOf 0xDFFF,
      regionOf 0xE000, regionOf 0xFFFF] =
    [.low, .low, .basicWindow, .basicWindow, .dWindow, .dWindow, .kernalWindow, .kernalWindow] ∧
    (0xCFFF : Addr).extractLsb' 12 4 = (0xC000 : Addr).extractLsb' 12 4 := by decide

theorem witness_VisibleBankByLatchValue :
    State.reset.flagsConsistent = true ∧ (latched 0x03).flagsConsistent = true ∧
      (latched 0xF8).flagsConsistent = true := by decide

theorem witness_BankIndexLeavesStorageOnlyPastBasic :
    resolve tc.flags (0xC000 : Addr).toNat = .ok .basicRom ∧ bankIndex .basicRom 0xC000 = none ∧
    resolve tc.flags (0xBFFF : Addr).toNat = .ok .basicRom ∧ bankIndex .basicRom 0xBFFF = some 0x1FFF := by decide

theorem witness_LatchWriteSetsTheFlagRow : tc.fault = none ∧ bothOn.fault = none := by decide

theorem witness_DeriveComputesTheFourExpressions : tc.fault = none ∧ bothOn.fault = none := by decide

theorem witness_DerivedFlagsExcludeEachOther : (deriveFlags 7).basicOn = true := by decide

theorem witness_FlagsChangeOnlyByStoringTheLatch :
    exec (.writeWordLe 0x0000 0x062F) tc = .next (after (.writeWordLe 0x0000 0x062F) tc) ∧
      (after (.writeWordLe 0x0000 0x062F) tc).flags ≠ tc.flags := ⟨exec_after _ _, by decide⟩

theorem witness_LatchWriteActsOnTheNextRead :
    tc.fault = none ∧ 0xD000 ≤ (0xD000 : Addr).toNat ∧ (0xDFFF : Addr).toNat ≤ 0xDFFF := by decide

theorem witness_ReadByteAnswersTheVisibleByte :
    tc.fault = none ∧ (latched 0x05).fault = none ∧ bothOn.fault = none ∧
    (0x9FFF : Addr).toNat ≤ 0x9FFF ∧
    (0xA000 ≤ (0xCFFF : Addr).toNat ∧ (0xCFFF : Addr).toNat ≤ 0xCFFF ∧ (latched 0x05).flags.basicOn = false) ∧
    (0xA000 ≤ (0xBFFF : Addr).toNat ∧ (0xBFFF : Addr).toNat ≤ 0xBFFF ∧ tc.flags.basicOn = true) ∧
    (0xD000 ≤ (0xD000 : Addr).toNat ∧ (0xD000 : Addr).toNat ≤ 0xDFFF ∧ bothOn.flags.chargenOn = true) ∧
    (0xD000 ≤ (0xDFFF : Addr).toNat ∧ (0xDFFF : Addr).toNat ≤ 0xDFFF ∧ tc.flags.chargenOn = false ∧
      tc.flags.ioOn = true) ∧
    ((latched 0x04).fault = none ∧ (latched 0x04).flags.chargenOn = false ∧ (latched 0x04).flags.ioOn = false) ∧
    (0xE000 ≤ (0xE000 : Addr).toNat ∧ tc.flags.kernalOn = true) ∧
    (0xE000 ≤ (0xFFFF : Addr).toNat ∧ (latched 0x05).flags.kernalOn = false) := by decide

theorem witness_ReadsPastTheBasicRomFault :
    tc.fault = none ∧ tc.flags.basicOn = true ∧
    (0xC000 ≤ (0xC000 : Addr).toNat ∧ (0xCFFF : Addr).toNat ≤ 0xCFFF) ∧ (0xBFFF : Addr).toNat = 0xBFFF := by decide

theorem witness_WriteByteStoresAndReportsVisibility :
    tc.fault = none ∧ (0x0001 : Addr).toNat = 1 ∧
    ((0x0002 : Addr).toNat ≠ 1 ∧ resolve tc.flags (0x0002 : Addr).toNat = .ok .ram) ∧
    resolve tc.flags (0xD000 : Addr).toNat = .ok .ioWindow ∧
    resolve tc.flags (0xC000 : Addr).toNat = .ok .basicRom ∧ resolve tc.flags (0xFFFF : Addr).toNat = .ok .kernalRom ∧
    bothOn.fault = none ∧ resolve bothOn.flags (0xDFFF : Addr).toNat = .ok .characterRom := by decide

theorem witness_VisibleWriteReadsBack :
    tc.fault = none ∧ exec (.writeByte 0x0001 0x05) tc = .next (after (.writeByte 0x0001 0x05) tc) ∧
    (after (.writeByte 0x0001 0x05) tc).responses = tc.responses ++ [.wrote true] ∧
    exec (.writeByte 0xC000 0x5A) tc = .next (after (.writeByte 0xC000 0x5A) tc) ∧
    (after (.writeByte 0xC000 0x5A) tc).responses = tc.responses ++ [.wrote false] :=
  ⟨by decide, exec_after _ _, by decide, exec_after _ _, by decide⟩

theorem witness_ByteUnderRomReadsAfterSwitchingTheRomOut :
    tc.fault = none ∧ resolve tc.flags (0xA000 : Addr).toNat = .ok .basicRom ∧ bankReadOnly .basicRom = true ∧
    exec (.writeByte 0xA000 0x99) tc = .next (after (.writeByte 0xA000 0x99) tc) ∧
    exec (setLatch 0x06) (after (.writeByte 0xA000 0x99) tc) =
      .next (after (setLatch 0x06) (after (.writeByte 0xA000 0x99) tc)) ∧
    resolve (after (setLatch 0x06) (after (.writeByte 0xA000 0x99) tc)).flags (0xA000 : Addr).toNat = .ok .ram :=
  ⟨by decide, by decide, by decide, exec_after _ _, exec_after _ _, by decide⟩

theorem witness_RepeatedWriteChangesNothing :
    tc.wf = true ∧ tc.fault = none ∧ exec (.writeByte 0xD020 0x01) tc = .next (after (.writeByte 0xD020 0x01) tc) :=
  ⟨by decide, by decide, exec_after _ _⟩

theorem witness_HiddenStorageIsNotReadable :
    isRead (.readWordLe 0xA000) = true ∧
    (resolve tc.flags (0xA000 : Addr).toNat ≠ .ok .ram ∧ resolve tc.flags (0xDFFF : Addr).toNat = .ok .ioWindow ∧
      resolve tc.flags (0xFFFF : Addr).toNat ≠ .ok .ram) ∧
    (latched 0x06).flags.basicOn = false ∧ tc.flags.chargenOn = false ∧ (latched 0x05).flags.kernalOn = false ∧
    ∀ a : Addr, resolve (latched 0x04).flags a.toNat ≠ .ok .ioWindow := by
  refine ⟨by decide, by decide, by decide, by decide, by decide, fun a => ?_⟩
  rw [resolve_addr, show (latched 0x04).flags = ⟨false, false, false, false⟩ by decide]
  unfold visibleBank
  simp

theorem witness_WordReadsAssembleTwoByteReads :
    tc.fault = none ∧ (0xBFFE : Addr).toNat ≠ 0xFFFF ∧
    ¬ (tc.flags.basicOn = true ∧ 0xBFFF ≤ (0xBFFE : Addr).toNat ∧ (0xBFFE : Addr).toNat ≤ 0xCFFF) ∧
    ¬ (tc.flags.basicOn = true ∧ 0xBFFF ≤ (0xFFFE : Addr).toNat ∧ (0xFFFE : Addr).toNat ≤ 0xCFFF) := by decide

theorem witness_WordWritesAreTwoByteWrites :
    tc.fault = none ∧ (0xFFFE : Addr).toNat ≠ 0xFFFF ∧ (0x0000 : Addr).toNat ≠ 0xFFFF := by decide

theorem witness_WordOperationsAtTheTopFault : tc.fault = none := by decide

theorem witness_VisibleWordWriteRoundTrips :
    tc.fault = none ∧
    ((after (.writeWordLe 0x0001 0xAB04) tc).responses = tc.responses ++ [.wrote true] ∧
      exec (.writeWordLe 0x0001 0xAB04) tc = .next (after (.writeWordLe 0x0001 0xAB04) tc)) ∧
    (after (.writeWordBe 0x9FFE 0x1234) tc).responses = tc.responses ++ [.wrote true] ∧
      exec (.writeWordBe 0x9FFE 0x1234) tc = .next (after (.writeWordBe 0x9FFE 0x1234) tc) :=
  ⟨by decide, ⟨by decide, exec_after _ _⟩, by decide, exec_after _ _⟩

theorem witness_WordWriteOrderIsUnobservable :
    tc.wf = true ∧ (0x0000 : Addr).toNat ≠ 0xFFFF ∧ (0xFFFE : Addr).toNat ≠ 0xFFFF := by decide

theorem witness_ResetWritesTwoBytesAndDerivesFlags : bothOn.fault = none := by decide

theorem witness_ResetIsIdempotent :
    bothOn.wf = true ∧ bothOn.fault = none ∧ exec .reset bothOn = .next (after .reset bothOn) :=
  ⟨by decide, by decide, exec_after _ _⟩

theorem witness_ConstructionThenResetLeavesTheListedValues (f : Flags) : rightLengths (zeroFilled f) :=
  ⟨List.length_replicate, List.length_replicate, List.length_replicate, List.length_replicate, List.length_replicate⟩

theorem witness_ConstructionRefusesExactlyWrongLengths :
    rightLengths (zeroFilled tc.flags) ∧ ¬ rightLengths { zeroFilled tc.flags with charImage := [] } :=
  ⟨witness_ConstructionThenResetLeavesTheListedValues _, fun h => absurd h.2.1 (by decide)⟩

theorem witness_FaultedBlockAnswersOnlyItsFault :
    (broken (.writeToReadOnly .basicRom 0xA000)).fault = some (.writeToReadOnly .basicRom 0xA000) ∧
    (broken (.addressOutOfRange 0xFFFF)).fault = some (.addressOutOfRange 0xFFFF) ∧
    (broken (.bankIndexOutOfRange .basicRom 0xC000)).fault = some (.bankIndexOutOfRange .basicRom 0xC000) := by decide

theorem witness_FaultIsNeverCleared :
    (broken (.addressOutOfRange 0xFFFF)).fault = some (.addressOutOfRange 0xFFFF) ∧
    ∃ t, Sys2Proof.core.run 1 { broken (.addressOutOfRange 0xFFFF) with requests := [0x0600000000#40] } = .next t :=
  ⟨by decide, _, rfl⟩

theorem witness_OperationsFaultExactlyWhereListed :
    tc.fault = none ∧ expectedFault tc.flags (.readWordBe 0xBFFF) = some (.bankIndexOutOfRange .basicRom 0xC000) ∧
    expectedFault tc.flags (.readWordBe 0xD000) = none ∧ expectedFault tc.flags (.readByte 0xCFFF) ≠ none := by decide

theorem witness_ReadsChangeOnlyFaultAndResponses :
    isRead (.readWordBe 0xFFFE) = true ∧ exec (.readWordBe 0xFFFE) tc = .next (after (.readWordBe 0xFFFE) tc) ∧
    (broken (.addressOutOfRange 0xFFFF)).fault ≠ none := ⟨by decide, exec_after _ _, by decide⟩

theorem witness_WriteByteChangesOneCell :
    exec (.writeByte 0xDFFF 0x01) tc = .next (after (.writeByte 0xDFFF 0x01) tc) ∧ tc.fault = none ∧
    storedCell tc.flags 0xDFFF = some (.ioWindow, 0xFFF) ∧ storedCell tc.flags 0xE000 = some (.ram, 0xE000) ∧
    (0xDFFF : Addr).toNat ≠ 1 ∧ (broken (.addressOutOfRange 0xFFFF)).fault ≠ none :=
  ⟨exec_after _ _, by decide, by decide, by decide, by decide, by decide⟩

theorem witness_WordWritesChangeTwoCells :
    exec (.writeByte 0xDFFF (lo 0xA1B2)) tc = .next (after (.writeByte 0xDFFF (lo 0xA1B2)) tc) ∧
    exec (.writeWordLe 0xDFFF 0xA1B2) tc = .next (after (.writeWordLe 0xDFFF 0xA1B2) tc) ∧
    storedCell tc.flags 0xDFFF ≠ some (.ram, 0xDFFF) ∧
    storedCell (after (.writeByte 0xDFFF (lo 0xA1B2)) tc).flags (0xDFFF + 1) ≠ some (.ram, 0xDFFF) ∧
    exec (.writeByte 0xFFFF (Claims.hi 0x1234)) tc = .next (after (.writeByte 0xFFFF (Claims.hi 0x1234)) tc) ∧
    exec (.writeWordBe 0xFFFF 0x1234) tc = .next (after (.writeWordBe 0xFFFF 0x1234) tc) ∧
    (0xFFFF : Addr).toNat = 0xFFFF ∧ 1 < (0x0002 : Addr).toNat ∧
    (broken (.addressOutOfRange 0xFFFF)).fault ≠ none :=
  ⟨exec_after _ _, exec_after _ _, by decide, by decide, exec_after _ _, exec_after _ _, by decide, by decide, by decide⟩

theorem witness_ResetChangesTwoBytesAndFlags :
    exec .reset bothOn = .next (after .reset bothOn) ∧ (BankKind.ram, 2) ≠ (.ram, 0) ∧ (BankKind.ram, 2) ≠ (.ram, 1) ∧
    (broken (.addressOutOfRange 0xFFFF)).fault ≠ none := ⟨exec_after _ _, by decide, by decide, by decide⟩

theorem witness_StepKeepsBanksCanonicalAndCartsFalse :
    ({ bothOn with requests := [0x01DFFF0001#40] } : State).wf = true ∧
    ∃ t, step { bothOn with requests := [0x01DFFF0001#40] } = .next t := ⟨by decide, _, rfl⟩

theorem witness_StepKeepsFlagsConsistent :
    ({ tc with requests := [0x0100010004#40] } : State).flagsConsistent = true ∧
    ∃ t, step { tc with requests := [0x0100010004#40] } = .next t := ⟨by decide, _, rfl⟩

theorem witness_ResetEstablishesTheInvariant : bothOn.wf = true ∧ bothOn.fault = none ∧ bothOn.flagsConsistent = false := by
  decide

theorem witness_RunsNeverChangeRomsOrCartFlags :
    ∃ t, Sys2Proof.core.run 1 { tc with requests := [0x01E0000042#40] } = .next t := ⟨_, rfl⟩

theorem witness_EveryProgramGetsOneResponsePerOperation : tc.requests = [] := by decide

theorem witness_RunEndsAtLastResponseFirstFaultOrFirstRefusal :
    tc.requests = [] ∧ (∃ t, (tc.issue [0x0600000000#40]).run = .completed t) ∧
    (∃ t, (tc.issue [0x00C0000000#40, 0x0700000000#40]).run = .faulted t) ∧
    ∃ why t, (tc.issue [0x0700000000#40, 0x00C0000000#40]).run = .refused why t :=
  ⟨by decide, ⟨_, rfl⟩, ⟨_, rfl⟩, _, _, rfl⟩

theorem witness_RunIsFinalOnlyWhenCompletedWithoutFault :
    tc.requests = [] ∧ (tc.issue [0x0600000000#40]).run.final = true ∧
    ∃ t, (tc.issue [0x00C0000000#40]).run = .faulted t := ⟨by decide, by decide, _, rfl⟩

theorem witness_ProgramsAvoidingTheHazardsRunSafely :
    tc.fault = none ∧ tc.requests = [] ∧
    ∀ i ∈ [Instr.readByte 0xBFFF, .readWordLe 0xBFFE, .readWordBe 0xD000, .writeWordLe 0xFFFE 1, .reset], faultFree i := by
  refine ⟨by decide, by decide, fun i hi => ?_⟩
  simp only [List.mem_cons, List.not_mem_nil, or_false] at hi
  rcases hi with rfl | rfl | rfl | rfl | rfl <;> simp [faultFree]

end Sys2Proof.Tests
end

section
/-! BANK_READ of each bank kind (`40_bank.md` rule R100). -/

namespace Sys2Proof.Machine

/-- Settles O10. BANK_READ by its range of addresses (`bankRead_eq`), taken at the base and length of each bank kind.
RAM starts at 0, so its range has no lower bound and its index is the address itself. -/
theorem bankReadReturnsTheStoredByte : Obligations.BankReadReturnsTheStoredByte := by
  intro s a
  refine ⟨?ram, bankRead_eq .basicRom a s, bankRead_eq .characterRom a s, bankRead_eq .ioWindow a s,
    bankRead_eq .kernalRom a s⟩
  case ram => simp [bankRead_eq, bankBase, bankLength, State.byteAt, State.bank]

end Sys2Proof.Machine
end

section
/-! The address decoder, one equation per row of the decoding table (`41_decode.md` rule R110). -/

namespace Sys2Proof.Machine

theorem resolve_low (f : Flags) {a : Nat} (h : a ≤ 0x9FFF) : resolve f a = .ok .ram := if_pos h

theorem resolve_basicWindow (f : Flags) {a : Nat} (hlo : 0xA000 ≤ a) (hhi : a ≤ 0xCFFF) :
    resolve f a = .ok (if f.basicOn then .basicRom else .ram) := by
  unfold resolve
  rw [if_neg (by omega), if_pos ⟨hlo, hhi⟩]

theorem resolve_dWindow (f : Flags) {a : Nat} (hlo : 0xD000 ≤ a) (hhi : a ≤ 0xDFFF) :
    resolve f a = .ok (if f.chargenOn then .characterRom else if f.ioOn then .ioWindow else .ram) := by
  unfold resolve
  rw [if_neg (by omega), if_neg (by omega), if_pos ⟨hlo, hhi⟩]

theorem resolve_kernalWindow (f : Flags) {a : Nat} (hlo : 0xE000 ≤ a) (hhi : a ≤ 0xFFFF) :
    resolve f a = .ok (if f.kernalOn then .kernalRom else .ram) := by
  unfold resolve
  rw [if_neg (by omega), if_neg (by omega), if_neg (by omega), if_pos ⟨hlo, hhi⟩]

theorem resolve_outOfRange (f : Flags) {a : Nat} (h : 0xFFFF < a) : resolve f a = .error (.addressOutOfRange a) := by
  unfold resolve
  rw [if_neg (by omega), if_neg (by omega), if_neg (by omega), if_neg (by omega)]

/-- Settles O12. Each window has one equation, with its flags as tests; a table row is that equation with the flags it
names put in. The D window's equation tests `chargen_on` before `io_on`, which is the table's priority. -/
theorem resolveFollowsTheDecodingTable : Obligations.ResolveFollowsTheDecodingTable := by
  intro f a
  refine ⟨resolve_low f, ?basicRom, ?basicRam, ?characterRom, ?ioWindow, ?dRam, ?kernalRom, ?kernalRam,
    resolve_outOfRange f⟩
  case basicRom | basicRam =>
    intro hlo hhi hb
    simp [resolve_basicWindow f hlo hhi, hb]
  case characterRom =>
    intro hlo hhi hc
    simp [resolve_dWindow f hlo hhi, hc]
  case ioWindow | dRam =>
    intro hlo hhi hc hi
    simp [resolve_dWindow f hlo hhi, hc, hi]
  case kernalRom | kernalRam =>
    intro hlo hhi hk
    simp [resolve_kernalWindow f hlo hhi, hk]

end Sys2Proof.Machine
end

section
/-! The overlap arbiter (`41_decode.md` rule R113). -/

namespace Sys2Proof.Machine

theorem writeTarget_of_resolve_ok {f : Flags} {a : Nat} {k : BankKind} (h : resolve f a = .ok k) :
    writeTarget f a = .ok (storeBank k) := by rw [writeTarget, h]

theorem writeTarget_of_resolve_error {f : Flags} {a : Nat} {e : Fault} (h : resolve f a = .error e) :
    writeTarget f a = .error e := by rw [writeTarget, h]

theorem storeBank_of_rom {k : BankKind} (h : k = .basicRom ∨ k = .characterRom ∨ k = .kernalRom) :
    storeBank k = .ram := by
  rcases h with rfl | rfl | rfl <;> rfl

theorem storeBank_of_writable {k : BankKind} (h : k = .ram ∨ k = .ioWindow) : storeBank k = k := by
  rcases h with rfl | rfl <;> rfl

/-- RAM starts at address 0, so a byte sent to RAM has the address itself as its index. -/
theorem storedCell_of_storeBank_ram {f : Flags} {a : Addr} (h : storeBank (visibleBank f a) = .ram) :
    storedCell f a = some (.ram, a.toNat) := by
  obtain ⟨hcell, -⟩ := storedCell_addr f a
  rw [hcell, h]
  rfl

/-- Settles O13. The arbiter applies `storeBank` to the bank RESOLVE gives, and `storeBank` takes a ROM to RAM and any
other bank to itself. -/
theorem writeTargetRedirectsRomsToRam : Obligations.WriteTargetRedirectsRomsToRam := by
  intro f a
  refine ⟨?rom, ?writable, fun e => writeTarget_of_resolve_error, ?cell⟩
  case rom =>
    intro k hres hk
    rw [writeTarget_of_resolve_ok hres, storeBank_of_rom hk]
  case writable =>
    intro k hres hk
    rw [writeTarget_of_resolve_ok hres, storeBank_of_writable hk]
  case cell =>
    intro x k hres hk
    have hvis : visibleBank f x = k := Except.ok.inj ((resolve_addr f x).symm.trans hres)
    exact storedCell_of_storeBank_ram (hvis ▸ storeBank_of_rom hk)

end Sys2Proof.Machine
end

section
/-! The four flag expressions of DERIVE, and the latch write that runs it (`42_latch.md` rule R120). -/

namespace Sys2Proof.Machine

/-- Bits 0 and 1 of the latch value are the latch byte modulo 4: both masks, 7 and 3, keep these two bits. -/
theorem latchValue_and_three_toNat (b : Byte) : (latchValue b &&& 3#8).toNat = b.toNat % 4 := by
  rw [latchValue, BitVec.and_assoc, BitVec.toNat_and]
  exact Nat.and_two_pow_sub_one_eq_mod b.toNat 2

theorem latchValue_and_three_eq_iff (b c : Byte) : latchValue b &&& 3#8 = c ↔ b.toNat % 4 = c.toNat := by
  rw [← BitVec.toNat_inj, latchValue_and_three_toNat]

/-- Mask 4 keeps bit 2 alone. -/
theorem latchValue_and_four_eq_zero_iff (b : Byte) : latchValue b &&& 4#8 = 0#8 ↔ b.getLsbD 2 = false := by
  rw [latchValue, BitVec.and_assoc, show 0x07 &&& 4#8 = BitVec.twoPow 8 2 from rfl, BitVec.and_twoPow]
  cases b.getLsbD 2 <;> decide

section Expressions
variable (b : Byte)

theorem deriveFlags_chargenOn :
    (deriveFlags b).chargenOn = true ↔ (b.getLsbD 2 = false ∧ b.toNat % 4 ≠ 0) := by
  simp [deriveFlags, latchValue_and_four_eq_zero_iff, latchValue_and_three_eq_iff]

theorem deriveFlags_ioOn : (deriveFlags b).ioOn = true ↔ (b.getLsbD 2 = true ∧ b.toNat % 4 ≠ 0) := by
  simp [deriveFlags, latchValue_and_four_eq_zero_iff, latchValue_and_three_eq_iff]

theorem deriveFlags_basicOn : (deriveFlags b).basicOn = true ↔ b.toNat % 4 = 3 := by
  simp [deriveFlags, latchValue_and_three_eq_iff]

theorem deriveFlags_kernalOn :
    (deriveFlags b).kernalOn = true ↔ ((deriveFlags b).basicOn = true ∨ b.toNat % 4 = 2) := by
  simp [deriveFlags, latchValue_and_three_eq_iff]

end Expressions

/-- The latch address is always in RAM, so a byte write there answers true; `State.written_latch` is what it stores. -/
theorem exec_writeByte_latch (v : Byte) {s : State} (h : s.fault = none) :
    exec (.writeByte latchAddr v) s =
      .next (({ s with ram := s.ram.write 1 v, flags := deriveFlags v } : State).respond (.wrote true)) := by
  have hram : visibleBank s.flags latchAddr = .ram := visibleBank_low _ (by decide)
  rw [exec_writeByte_running _ _ h, writeByte_written, State.written_latch, hram]
  rfl

theorem derive_write_latch (s : State) (v : Byte) :
    { s with ram := s.ram.write 1 v }.derive = { s with ram := s.ram.write 1 v, flags := deriveFlags v } := by
  simp [State.derive, State.latchByte, latchAddr]

/-- Settles O18. DERIVE's flags are `deriveFlags` of the latch byte, which has one equivalence per flag; after a write
at 0x0001 that byte is the one just stored. -/
theorem deriveComputesTheFourExpressions : Obligations.DeriveComputesTheFourExpressions := by
  refine ⟨?write, ?derive⟩
  case write =>
    intro s v h
    rw [derive_write_latch]
    exact exec_writeByte_latch v h
  case derive =>
    intro s
    exact ⟨_, _, _, _, rfl, deriveFlags_chargenOn _, deriveFlags_ioOn _, deriveFlags_basicOn _,
      deriveFlags_kernalOn _⟩

end Sys2Proof.Machine
end

section
/-! WRITE_BYTE: its request word, the state it leaves in each kind of target, and its answer (`43_byte_access.md` rule
R131). -/

namespace Sys2Proof.Machine

/-- The `data` field of WRITE_BYTE is its byte operand under eight zero bits (`30_encoding.md` rule R87). -/
theorem encode_writeByte (a : Addr) (v : Byte) : encode (.writeByte a v) = 0x01#8 ++ a ++ 0x00#8 ++ v := by
  have hdata : (v.setWidth 16 : Word) = 0x00#8 ++ v := BitVec.setWidth_eq_append (by decide)
  rw [encode, packFields, Instr.fields, hdata]
  exact BitVec.append_assoc'.trans (BitVec.cast_eq rfl _)

section Targets
variable {s : State} {a : Addr} {k : BankKind}

theorem visibleBank_of_resolve {f : Flags} (h : resolve f a.toNat = .ok k) : visibleBank f a = k :=
  Except.ok.inj ((resolve_addr f a).symm.trans h)

/-- The latch address lies below every window, so RAM is visible there. -/
theorem ne_latchAddr_of_resolve {f : Flags} (hres : resolve f a.toNat = .ok k) (hk : k ≠ .ram) : a ≠ latchAddr := by
  rintro rfl
  exact hk ((visibleBank_of_resolve hres).symm.trans (visibleBank_low f (by decide)))

/-- A byte that goes to RAM, as the visible bank or under a ROM, away from the latch. -/
theorem exec_writeByte_ram (v : Byte) (hf : s.fault = none) (ha : a ≠ latchAddr)
    (hres : resolve s.flags a.toNat = .ok k) (hst : storeBank k = .ram) :
    exec (.writeByte a v) s =
      .next (({ s with ram := s.ram.write a.toNat v } : State).respond (.wrote (!bankReadOnly k))) := by
  rw [exec_writeByte_running a v hf, writeByte_ok, visibleBank_of_resolve hres, hst, afterStore, if_neg ha]
  rfl

theorem exec_writeByte_ioWindow (v : Byte) (hf : s.fault = none) (hres : resolve s.flags a.toNat = .ok .ioWindow) :
    exec (.writeByte a v) s =
      .next (({ s with io := s.io.write (a.toNat - 0xD000) v } : State).respond (.wrote true)) := by
  rw [exec_writeByte_running a v hf, writeByte_ok, visibleBank_of_resolve hres, afterStore,
    if_neg (ne_latchAddr_of_resolve hres (by decide))]
  rfl

end Targets

/-- Settles O25. A byte goes to the latch, to RAM, to the I/O window or under a ROM, and each target has one equation
of `exec`; under a ROM that is the equation of RAM, answering false. RESOLVE raises on no 16-bit address. -/
theorem writeByteStoresAndReportsVisibility : Obligations.WriteByteStoresAndReportsVisibility := by
  refine ⟨encode_writeByte, fun s a v hf => ⟨?latch, ?ram, exec_writeByte_ioWindow v hf, ?rom, ?noRaise⟩⟩
  case latch =>
    intro ha
    obtain rfl : a = latchAddr := BitVec.eq_of_toNat_eq ha
    exact exec_writeByte_latch v hf
  case ram =>
    intro ha hres
    have hne : a ≠ latchAddr := fun e => ha (congrArg BitVec.toNat e)
    exact exec_writeByte_ram v hf hne hres rfl
  case rom =>
    intro k hres hk
    have hne : a ≠ latchAddr := ne_latchAddr_of_resolve hres (by rcases hk with rfl | rfl | rfl <;> decide)
    have hro : bankReadOnly k = true := by rcases hk with rfl | rfl | rfl <;> rfl
    rw [exec_writeByte_ram v hf hne hres (storeBank_of_rom hk), hro]
    rfl
  case noRaise =>
    intro e
    simp [resolve_addr]

end Sys2Proof.Machine
end

section
/-! RESET: its request word and the state it leaves (`45_reset_op.md` rule R150). -/

namespace Sys2Proof.Machine

/-- The second write of RESET is a latch write, so the flags after it are those DERIVE gives for latch value 7, whatever
they were before (`45_reset_op.md` rule R151 (3)). -/
theorem exec_reset_eq {s : State} (h : s.fault = none) :
    exec .reset s = .next (({ s with
      ram := (s.ram.write 0 0xFF).write 1 0x07
      flags := { basicOn := true, kernalOn := true, chargenOn := false, ioOn := true } } : State).respond .done) := by
  rw [exec_reset_running h, resetWrites_eq]
  rfl

/-- Settles O35. The request word is the packing of one opcode and two zero fields; the state is that of RESET's two
byte writes (`resetWrites_eq`) with `Done` appended to the responses. -/
theorem resetWritesTwoBytesAndDerivesFlags : Obligations.ResetWritesTwoBytesAndDerivesFlags := by
  refine ⟨?encoding, ?completion⟩
  case encoding => decide
  case completion =>
    intro s h
    exact exec_reset_eq h

end Sys2Proof.Machine
end

section
/-! The request word: the decoder and the encoder undo each other, and the decoder accepts exactly the opcode map
(`30_encoding.md` rules R86 to R89). -/

namespace Sys2Proof

open Sys2Proof.Claims

@[simp] theorem fieldsOf_encode (i : Instr) : fieldsOf (encode i) = i.fields := fieldsOf_packFields _

theorem requireZeroData_eq_ok {f : RequestFields} {i j : Instr} : requireZeroData f i = .ok j ↔ f.data = 0 ∧ i = j := by
  unfold requireZeroData
  split
  · next hzero => simp [hzero]
  · next hne => exact ⟨nofun, fun h => absurd h.1 hne⟩

theorem decodeFields_fields (i : Instr) : decodeFields i.fields = .ok i := by
  cases i with
  | writeByte a v =>
    have hdecode : decodeFields (Instr.writeByte a v).fields =
        if (v.setWidth 16 : Word).extractLsb' 8 8 = 0 then .ok (.writeByte a ((v.setWidth 16 : Word).extractLsb' 0 8))
        else .error (.dataNotZero 0x01 (v.setWidth 16)) := rfl
    rw [hdecode, highByte_setWidth, lowByte_setWidth, if_pos rfl]
  | readByte | readWordLe | readWordBe | writeWordLe | writeWordBe | reset => rfl

theorem RequestFields.ext_of_toNat {f g : RequestFields} (hop : f.op.toNat = g.op.toNat) (haddr : f.addr = g.addr)
    (hdata : f.data = g.data) : f = g :=
  congr (congr (congrArg RequestFields.mk (BitVec.eq_of_toNat_eq hop)) haddr) hdata

/-- The opcode fixes the constructor; the operands, and the zeros rule R87 asks for, fix the other two fields. -/
theorem fields_of_decodeFields {f : RequestFields} {i : Instr} (h : decodeFields f = .ok i) : i.fields = f := by
  unfold decodeFields at h
  split at h
  case h_1 hop | h_3 hop | h_4 hop =>
    obtain ⟨hdata, rfl⟩ := requireZeroData_eq_ok.mp h
    exact RequestFields.ext_of_toNat hop.symm rfl hdata.symm
  case h_2 hop =>
    split at h
    case isTrue hhigh =>
      cases h
      exact RequestFields.ext_of_toNat hop.symm rfl (setWidth_lowByte hhigh)
    case isFalse => cases h
  case h_5 hop | h_6 hop =>
    cases h
    exact RequestFields.ext_of_toNat hop.symm rfl rfl
  case h_7 hop =>
    split at h
    case isTrue haddr =>
      obtain ⟨hdata, rfl⟩ := requireZeroData_eq_ok.mp h
      exact RequestFields.ext_of_toNat hop.symm haddr.symm hdata.symm
    case isFalse => cases h
  case h_8 => cases h

@[simp] theorem decode_encode (i : Instr) : decode (encode i) = .ok i := by
  rw [decode, fieldsOf_encode, decodeFields_fields]

theorem decode_eq_ok_iff {w : ReqWord} {i : Instr} : decode w = .ok i ↔ encode i = w := by
  constructor
  · intro h
    rw [encode, fields_of_decodeFields h, packFields_fieldsOf]
  · rintro rfl
    exact decode_encode i

/-- Settles O1. The fields of an encoded operation are its own fields, and the field decoder reads them back. -/
theorem encodedOperationsDecodeToThemselves : Obligations.EncodedOperationsDecodeToThemselves :=
  decode_encode

/-- Settles O2. A decoded operation has the fields of the word it was decoded from, and the fields determine the word. -/
theorem decodedWordsEncodeToThemselves : Obligations.DecodedWordsEncodeToThemselves :=
  fun _ _ => decode_eq_ok_iff.mp

theorem wellFormed_encode (i : Instr) : (encode i).wellFormed = true := by
  rw [encode, wellFormed_iff]
  cases i <;> simp [Instr.fields, highByte_setWidth]

theorem exists_encode_of_wellFormed {w : ReqWord} (h : w.wellFormed = true) : ∃ i, encode i = w := by
  rw [← packFields_fieldsOf w] at h ⊢
  generalize fieldsOf w = f at h ⊢
  obtain ⟨op, addr, data⟩ := f
  rw [wellFormed_iff] at h
  rcases h with ⟨rfl, rfl⟩ | ⟨rfl, hhigh⟩ | ⟨rfl, rfl⟩ | ⟨rfl, rfl⟩ | rfl | rfl | ⟨rfl, rfl, rfl⟩
  · exact ⟨.readByte addr, rfl⟩
  · refine ⟨.writeByte addr (data.extractLsb' 0 8), ?_⟩
    rw [encode, Instr.fields, setWidth_lowByte hhigh]
  · exact ⟨.readWordLe addr, rfl⟩
  · exact ⟨.readWordBe addr, rfl⟩
  · exact ⟨.writeWordLe addr data, rfl⟩
  · exact ⟨.writeWordBe addr data, rfl⟩
  · exact ⟨.reset, rfl⟩

theorem exists_decode_iff_wellFormed (w : ReqWord) : (∃ i, decode w = .ok i) ↔ w.wellFormed = true := by
  simp only [decode_eq_ok_iff]
  constructor
  · rintro ⟨i, rfl⟩
    exact wellFormed_encode i
  · exact exists_encode_of_wellFormed

/-- Settles O3. The words that decode are the encodings, and so are the words some row of the opcode map selects. -/
theorem decoderAcceptsExactlyTheOpcodeMap : Obligations.DecoderAcceptsExactlyTheOpcodeMap :=
  exists_decode_iff_wellFormed

/-- The opcode a row of the map asks for. -/
def OpcodeRow.opcode (row : OpcodeRow) : Byte := (fieldsOf row.pattern).op

/-- Every row masks the whole opcode, so a row selects only words of its own opcode. -/
theorem op_eq_opcode_of_selects {row : OpcodeRow} {w : ReqWord} (hrow : row ∈ opcodeMap) (h : row.selects w = true) :
    (fieldsOf w).op = row.opcode := by
  have hmask : ∀ r ∈ opcodeMap, (fieldsOf r.mask).op = 0xFF := by decide
  rw [OpcodeRow.selects, beq_iff_eq, ← packFields_fieldsOf w, ← packFields_fieldsOf row.mask, packFields_and] at h
  have hop := congrArg (fun r => (fieldsOf r).op) h
  simpa only [fieldsOf_packFields, hmask row hrow, byte_and_ff, OpcodeRow.opcode] using hop

/-- The seven rows have seven opcodes, and a word has one. -/
theorem selectingRows_length_le_one (w : ReqWord) : (opcodeMap.filter (·.selects w)).length ≤ 1 := by
  have hnodup : (opcodeMap.map OpcodeRow.opcode).Nodup := by decide
  calc (opcodeMap.filter (·.selects w)).length
      = opcodeMap.countP (·.selects w) := List.countP_eq_length_filter.symm
    _ ≤ opcodeMap.countP ((· == (fieldsOf w).op) ∘ OpcodeRow.opcode) :=
        List.countP_mono_left fun row hrow h => beq_iff_eq.mpr (op_eq_opcode_of_selects hrow h).symm
    _ = (opcodeMap.map OpcodeRow.opcode).count (fieldsOf w).op := List.countP_map.symm
    _ ≤ 1 := List.nodup_iff_count_le_one.mp hnodup _

theorem selectingRows_encode (i : Instr) :
    (opcodeMap.filter (·.selects (encode i))).map OpcodeRow.mnemonic = [mnemonic i] := by
  have hrows := opcodeMap_selects i.fields
  simp only [opcodeMap, List.map_cons, List.map_nil, List.cons.injEq, and_true] at hrows
  obtain ⟨h0, h1, h2, h3, h4, h5, h6⟩ := hrows
  simp only [encode, opcodeMap, List.filter_cons, List.filter_nil, h0, h1, h2, h3, h4, h5, h6]
  cases i <;> simp [Instr.fields, highByte_setWidth, mnemonic]

/-- Settles O4. What each row asks of an operation's fields leaves its own row alone; two rows never select one word,
since the rows have different opcodes. -/
theorem eachOperationIsSelectedByItsOwnRow : Obligations.EachOperationIsSelectedByItsOwnRow :=
  ⟨selectingRows_encode, selectingRows_length_le_one⟩

/-- Settles O5, by running the decoder on the eleven words. -/
theorem listedRequestWordsDecode : Obligations.ListedRequestWordsDecode := by
  unfold Obligations.ListedRequestWordsDecode
  decide

end Sys2Proof
end

section
/-! One step of the block by the word it takes (`30_encoding.md` rules R88 and R89). -/

namespace Sys2Proof.Machine

theorem step_of_no_request {s : State} (h : s.requests = []) : step s = .next s := by
  rw [step, State.takeRequest, h]

theorem step_of_decode {s : State} {w : ReqWord} {rest : List ReqWord} {i : Instr} (hq : s.requests = w :: rest)
    (hd : decode w = .ok i) : step s = exec i { s with requests := rest } := by
  simp only [step, State.takeRequest, hq, hd]

/-- Settles O6. `step` takes the first pending word, decodes it and hands the operation to `exec`. -/
theorem stepRunsTheDecodedOperation : Obligations.StepRunsTheDecodedOperation :=
  fun _ _ _ _ => step_of_decode

theorem decode_of_decodeTableWord {n w : Nat} {i : Instr} (h : decodeTableWord n w = some i) :
    decode (BitVec.ofNat 40 w) = .ok i := by
  unfold decodeTableWord at h
  split at h
  · split at h
    · next hd => rw [hd, Option.some.inj h]
    · cases h
  · cases h

/-- Settles O7. The pushed word is the next one, and taking it gives back the state it was put before. -/
theorem fetchedTableWordRuns : Obligations.FetchedTableWordRuns :=
  fun s w _ h => step_of_decode (s.pushRequest_requests w) (decode_of_decodeTableWord h)

/-- Settles O8. With a word pending, `step_request` leaves two cases, told apart by whether the word decodes, which is
whether it is well formed; neither is a fault. -/
theorem stepRefusesExactlyReservedWords : Obligations.StepRefusesExactlyReservedWords := by
  intro s
  refine ⟨step_of_no_request, ?answered, ?refused, ?noFault⟩
  case answered =>
    intro w rest hq hwf
    obtain ⟨i, hd⟩ := (exists_decode_iff_wellFormed w).mpr hwf
    rw [step_of_decode hq hd]
    exact exec_next i _
  case refused =>
    intro w rest hq hwf
    rcases step_request hq with hrefused | ⟨-, hdecodes, -⟩
    · exact hrefused
    · simp [(exists_decode_iff_wellFormed w).mp hdecodes] at hwf
  case noFault =>
    intro f hstep
    cases hq : s.requests with
    | nil => simp [step_of_no_request hq] at hstep
    | cons w rest =>
      rcases step_request hq with ⟨why, -, h⟩ | ⟨t, -, h, -⟩ <;> simp [h] at hstep

end Sys2Proof.Machine
end

section
/-! What an operation does, in one equation for all seven: on a block without a fault it raises the fault
`expectedFault` lists (`60_exceptions.md` rule R160), and where none is listed it has its effect on the state and gives
its answer (`30_encoding.md` rule R88). -/

namespace Sys2Proof.Machine

open Sys2Proof.Claims

/-- The byte a read at `a` sees, where it does not raise. -/
def State.visibleByte (s : State) (a : Addr) : Byte :=
  s.byteAt (visibleBank s.flags a) (a.toNat - bankBase (visibleBank s.flags a))

/-- The `visible` result of a write: the visible bank is the bank that stores. -/
def writeVisible (f : Flags) (a : Addr) : Bool := !bankReadOnly (visibleBank f a)

/-- The state the two byte writes of a word write leave. -/
def State.writtenPair (s : State) (a : Addr) (b0 b1 : Byte) : State := (s.written a b0).written (a + 1) b1

/-- The `visible` result of a word write: the AND of its two byte writes' results. -/
def State.pairVisible (s : State) (a : Addr) (b0 : Byte) : Bool :=
  writeVisible s.flags a && writeVisible (s.written a b0).flags (a + 1)

/-- The state a completed operation leaves, but for its response. -/
def State.effect (s : State) : Instr → State
  | .readByte _ => s
  | .readWordLe _ => s
  | .readWordBe _ => s
  | .writeByte a v => s.written a v
  | .writeWordLe a w => s.writtenPair a (loByte w) (hiByte w)
  | .writeWordBe a w => s.writtenPair a (hiByte w) (loByte w)
  | .reset => s.writtenPair 0x0000 0xFF 0x07

/-- The response of a completed operation. -/
def State.answer (s : State) : Instr → Response
  | .readByte a => .byte (s.visibleByte a)
  | .readWordLe a => .word (s.visibleByte (a + 1) ++ s.visibleByte a)
  | .readWordBe a => .word (s.visibleByte a ++ s.visibleByte (a + 1))
  | .writeByte a _ => .wrote (writeVisible s.flags a)
  | .writeWordLe a w => .wrote (s.pairVisible a (loByte w))
  | .writeWordBe a w => .wrote (s.pairVisible a (hiByte w))
  | .reset => .done

/-- A read at an address whose index is past the end of BASIC-ROM (spec decision D5). -/
def PastBasic (f : Flags) (a : Addr) : Prop := f.basicOn = true ∧ 0xC000 ≤ a.toNat ∧ a.toNat ≤ 0xCFFF

theorem readFault_eq_none_iff (f : Flags) (a : Addr) : expectedFault.readFault f a = none ↔ ¬ PastBasic f a := by
  unfold expectedFault.readFault PastBasic
  split <;> simp [*]

theorem readFault_of_pastBasic {f : Flags} {a : Addr} (h : PastBasic f a) :
    expectedFault.readFault f a = some (.bankIndexOutOfRange .basicRom a.toNat) := if_pos h

theorem wordReadFault_eq_none_iff (f : Flags) (a : Addr) : expectedFault.wordReadFault f a = none ↔
    a.toNat ≠ 0xFFFF ∧ ¬ (f.basicOn = true ∧ 0xBFFF ≤ a.toNat ∧ a.toNat ≤ 0xCFFF) := by
  unfold expectedFault.wordReadFault expectedFault.readFault
  by_cases hon : f.basicOn = true
  · simp only [hon, true_and]
    split_ifs <;> simp <;> omega
  · simp [hon]

theorem topFault_eq_none_iff (a : Addr) : expectedFault.topFault a = none ↔ a.toNat ≠ 0xFFFF := by
  unfold expectedFault.topFault
  split <;> simp [*]

/-- The two addresses of a word read that does not fault are both short of the end of BASIC-ROM. -/
theorem not_pastBasic_of_wordReadFault {f : Flags} {a : Addr} (h : expectedFault.wordReadFault f a = none) :
    ¬ PastBasic f a ∧ ¬ PastBasic f (a + 1) := by
  obtain ⟨htop, hbasic⟩ := (wordReadFault_eq_none_iff f a).mp h
  have hnext : (a + 1).toNat = a.toNat + 1 := secondAddress_toNat fun e => htop (congrArg BitVec.toNat e)
  exact ⟨fun ⟨hon, _, _⟩ => hbasic ⟨hon, by omega, by omega⟩, fun ⟨hon, _, _⟩ => hbasic ⟨hon, by omega, by omega⟩⟩

theorem readByte_of_not_pastBasic {s : State} {a : Addr} (h : ¬ PastBasic s.flags a) :
    readByte a s = .ok (s.visibleByte a) s := by
  rcases readByte_cases a s with ⟨-, e⟩ | ⟨hp, -⟩
  · exact e
  · exact absurd hp h

theorem readByte_raises {s : State} {a : Addr} {f : Fault} (h : expectedFault.readFault s.flags a = some f) :
    readByte a s = .raised f s := by
  rcases readByte_cases a s with ⟨hp, -⟩ | ⟨hp, -, e⟩
  · cases h.symm.trans ((readFault_eq_none_iff _ a).mpr hp)
  · rw [e, Option.some.inj (h.symm.trans (readFault_of_pastBasic hp))]

theorem readPair_completes {s : State} {a : Addr} (h : expectedFault.wordReadFault s.flags a = none) :
    readPair a s = .ok (s.visibleByte a, s.visibleByte (a + 1)) s := by
  obtain ⟨htop, -⟩ := (wordReadFault_eq_none_iff _ a).mp h
  obtain ⟨h0, h1⟩ := not_pastBasic_of_wordReadFault h
  rw [readPair_eq fun e => htop (congrArg BitVec.toNat e), readByte_of_not_pastBasic h0]
  simp only [Result.andThen, readByte_of_not_pastBasic h1]

theorem readPair_raises {s : State} {a : Addr} {f : Fault} (h : expectedFault.wordReadFault s.flags a = some f) :
    readPair a s = .raised f s := by
  rcases readPair_cases a s with ⟨htop, e⟩ | ⟨htop, hbasic, -⟩ | ⟨hon, ha, e⟩ | ⟨hon, hlo, hhi, e⟩
  case inr.inl => cases h.symm.trans ((wordReadFault_eq_none_iff _ a).mpr ⟨htop, hbasic⟩)
  all_goals unfold expectedFault.wordReadFault expectedFault.readFault at h
  · rw [if_pos htop] at h
    rw [e, Option.some.inj h]
  · rw [if_neg (by omega), if_pos ⟨hon, ha⟩] at h
    rw [e, Option.some.inj h]
  · rw [if_neg (by omega), if_neg (by omega), if_pos ⟨hon, hlo, hhi⟩] at h
    rw [e, Option.some.inj h]

theorem writePair_completes (s : State) {a : Addr} (b0 b1 : Byte) (h : expectedFault.topFault a = none) :
    writePair a b0 b1 s = .ok (s.pairVisible a b0) (s.writtenPair a b0 b1) := by
  rcases writePair_cases a b0 b1 s with ⟨htop, -⟩ | ⟨-, e⟩
  · exact absurd htop ((topFault_eq_none_iff a).mp h)
  · exact e

theorem writePair_raises (s : State) {a : Addr} {f : Fault} (b0 b1 : Byte) (h : expectedFault.topFault a = some f) :
    writePair a b0 b1 s = .raised f s := by
  unfold expectedFault.topFault at h
  rcases writePair_cases a b0 b1 s with ⟨htop, e⟩ | ⟨htop, -⟩
  · rw [if_pos htop] at h
    rw [e, Option.some.inj h]
  · rw [if_neg htop] at h
    cases h

/-- RESET's two writes are those of a word write at 0x0000, whose second address is the latch address. -/
theorem resetWrites_completes (s : State) : resetWrites s = .ok () (s.writtenPair 0x0000 0xFF 0x07) := by
  simp only [resetWrites, Result.andThen, writeByte_written]
  rfl

theorem exec_raises {i : Instr} {s : State} {f : Fault} (hf : s.fault = none)
    (h : expectedFault s.flags i = some f) : exec i s = .next (s.raise f) := by
  cases i with
  | readByte a => rw [exec_readByte_running a hf, readByte_raises h]; rfl
  | readWordLe a => rw [exec_readWordLe_running a hf, readPair_raises h]; rfl
  | readWordBe a => rw [exec_readWordBe_running a hf, readPair_raises h]; rfl
  | writeWordLe a w => rw [exec_writeWordLe_running a w hf, writePair_raises s _ _ h]; rfl
  | writeWordBe a w => rw [exec_writeWordBe_running a w hf, writePair_raises s _ _ h]; rfl
  | writeByte a v => cases h
  | reset => cases h

theorem exec_completes {i : Instr} {s : State} (hf : s.fault = none) (h : expectedFault s.flags i = none) :
    exec i s = .next ((s.effect i).respond (s.answer i)) := by
  cases i with
  | readByte a =>
    rw [exec_readByte_running a hf, readByte_of_not_pastBasic ((readFault_eq_none_iff _ a).mp h)]
    rfl
  | readWordLe a =>
    rw [exec_readWordLe_running a hf, readPair_completes h]
    simp only [Result.finish, wordOf_eq_append, State.effect, State.answer]
  | readWordBe a =>
    rw [exec_readWordBe_running a hf, readPair_completes h]
    simp only [Result.finish, wordOf_eq_append, State.effect, State.answer]
  | writeByte a v => rw [exec_writeByte_running a v hf, writeByte_written]; rfl
  | writeWordLe a w => rw [exec_writeWordLe_running a w hf, writePair_completes s _ _ h]; rfl
  | writeWordBe a w => rw [exec_writeWordBe_running a w hf, writePair_completes s _ _ h]; rfl
  | reset => rw [exec_reset_running hf, resetWrites_completes]; rfl

theorem exec_writeByte_completes {s : State} (hf : s.fault = none) (a : Addr) (v : Byte) :
    exec (.writeByte a v) s = .next ((s.written a v).respond (.wrote (writeVisible s.flags a))) :=
  exec_completes hf rfl

/-- Everything an operation that answers a next state can do: answer the fault the block holds, raise its listed fault,
or complete. -/
theorem exec_inversion {i : Instr} {s t : State} (h : exec i s = .next t) :
    (∃ f, s.fault = some f ∧ t = s.respond (.fault (faultCode f))) ∨
    (∃ f, s.fault = none ∧ expectedFault s.flags i = some f ∧ t = s.raise f) ∨
    (s.fault = none ∧ expectedFault s.flags i = none ∧ t = (s.effect i).respond (s.answer i)) := by
  cases hf : s.fault with
  | some f =>
    rw [exec_of_faulted i hf] at h
    exact .inl ⟨f, rfl, (Host.Outcome.next.inj h).symm⟩
  | none =>
    cases he : expectedFault s.flags i with
    | some f =>
      rw [exec_raises hf he] at h
      exact .inr (.inl ⟨f, rfl, rfl, (Host.Outcome.next.inj h).symm⟩)
    | none =>
      rw [exec_completes hf he] at h
      exact .inr (.inr ⟨rfl, rfl, (Host.Outcome.next.inj h).symm⟩)

end Sys2Proof.Machine
end

section
/-! The state a byte write leaves: its one cell, the ROMs, the flags, and the visible bytes of later reads
(`43_byte_access.md` rule R131). -/

namespace Sys2Proof.Machine

open Sys2Proof.Claims

section Constants
variable (s : State) (a : Addr) (v : Byte)

/-- A byte write stores into no ROM. -/
theorem State.written_bank_readOnly {k : BankKind} (hk : bankReadOnly k = true) : (s.written a v).bank k = s.bank k := by
  rw [State.written_bank, if_neg]
  rintro rfl
  exact Bool.false_ne_true ((bankReadOnly_storeBank _).symm.trans hk)

@[simp] theorem State.written_basic : (s.written a v).basic = s.basic := s.written_bank_readOnly a v (k := .basicRom) rfl
@[simp] theorem State.written_char : (s.written a v).char = s.char :=
  s.written_bank_readOnly a v (k := .characterRom) rfl
@[simp] theorem State.written_kernal : (s.written a v).kernal = s.kernal :=
  s.written_bank_readOnly a v (k := .kernalRom) rfl

theorem written_sameElsewhere : sameElsewhere s (s.written a v) := by simp [sameElsewhere]

end Constants

theorem sameElsewhere_refl (s : State) : sameElsewhere s s := ⟨rfl, rfl, rfl, rfl, rfl, rfl⟩

theorem sameElsewhere_trans {s t u : State} (h : sameElsewhere s t) (h' : sameElsewhere t u) : sameElsewhere s u := by
  obtain ⟨h1, h2, h3, h4, h5, h6⟩ := h
  obtain ⟨h1', h2', h3', h4', h5', h6'⟩ := h'
  exact ⟨h1'.trans h1, h2'.trans h2, h3'.trans h3, h4'.trans h4, h5'.trans h5, h6'.trans h6⟩

theorem writtenPair_sameElsewhere (s : State) (a : Addr) (b0 b1 : Byte) : sameElsewhere s (s.writtenPair a b0 b1) :=
  sameElsewhere_trans (written_sameElsewhere s a b0) (written_sameElsewhere _ (a + 1) b1)

theorem effect_sameElsewhere (s : State) (i : Instr) : sameElsewhere s (s.effect i) := by
  cases i with
  | readByte | readWordLe | readWordBe => exact sameElsewhere_refl s
  | writeByte => exact written_sameElsewhere s _ _
  | writeWordLe | writeWordBe | reset => exact writtenPair_sameElsewhere s _ _ _

/-- No operation changes a ROM, a cartridge flag or the pending requests. -/
theorem exec_sameElsewhere {i : Instr} {s t : State} (h : exec i s = .next t) : sameElsewhere s t := by
  rcases exec_inversion h with ⟨f, -, rfl⟩ | ⟨f, -, -, rfl⟩ | ⟨-, -, rfl⟩
  · exact sameElsewhere_refl s
  · exact sameElsewhere_refl s
  · exact effect_sameElsewhere s i

section Effect
variable (s : State) (i : Instr)
@[simp] theorem State.effect_fault : (s.effect i).fault = s.fault := by
  cases i <;> simp [State.effect, State.writtenPair]
@[simp] theorem State.effect_responses : (s.effect i).responses = s.responses := by
  cases i <;> simp [State.effect, State.writtenPair]
end Effect

/-! ### The cells -/

theorem byteAt_written_of_storedCell {s : State} {a : Addr} {k : BankKind} {j : Nat} (v : Byte)
    (h : storedCell s.flags a = some (k, j)) (k' : BankKind) (j' : Nat) :
    (s.written a v).byteAt k' j' = if (k', j') = (k, j) then v else s.byteAt k' j' := by
  obtain ⟨hcell, -⟩ := storedCell_addr s.flags a
  obtain ⟨rfl, rfl⟩ := Prod.mk.inj (Option.some.inj (hcell.symm.trans h))
  simp only [State.written_byteAt, Prod.mk.injEq]

theorem byteAt_written_of_ne {s : State} {a : Addr} {k : BankKind} {j : Nat} (v : Byte)
    (h : storedCell s.flags a ≠ some (k, j)) : (s.written a v).byteAt k j = s.byteAt k j := by
  obtain ⟨hcell, -⟩ := storedCell_addr s.flags a
  rw [byteAt_written_of_storedCell v hcell, if_neg fun e => h (hcell.trans (congrArg some e.symm))]

/-- The latch byte's cell is stored by a write at the latch address alone. -/
theorem storedCell_ne_latch (f : Flags) {a : Addr} (ha : a ≠ latchAddr) : storedCell f a ≠ some (.ram, 1) := by
  intro h
  rcases storeBank_visibleBank f a with hb | ⟨hb, -⟩
  · rw [storedCell_of_storeBank_ram hb] at h
    exact ha (BitVec.eq_of_toNat_eq (Prod.mk.inj (Option.some.inj h)).2)
  · rw [(storedCell_addr f a).1, hb] at h
    cases (Prod.mk.inj (Option.some.inj h)).1

/-! ### The flags -/

theorem flagsConsistent_iff (s : State) : s.flagsConsistent = true ↔ s.flags = deriveFlags (s.ram.read 1) := beq_iff_eq

/-- A byte write at the latch address derives the flags from the byte it stores; at any other it changes neither the
latch byte nor the flags. -/
theorem flagsConsistent_written {s : State} {a : Addr} (v : Byte) (h : a = latchAddr ∨ s.flagsConsistent = true) :
    (s.written a v).flagsConsistent = true := by
  rw [flagsConsistent_iff] at h ⊢
  by_cases ha : a = latchAddr
  · subst ha
    rw [State.written_latch]
    simp
  · have hlatch : (s.written a v).byteAt .ram 1 = s.byteAt .ram 1 := byteAt_written_of_ne v (storedCell_ne_latch _ ha)
    rw [State.written_flags_other _ _ _ ha, h.resolve_left ha]
    exact congrArg deriveFlags hlatch.symm

theorem flagsConsistent_effect {s : State} (i : Instr) (h : s.flagsConsistent = true) :
    (s.effect i).flagsConsistent = true := by
  cases i with
  | readByte | readWordLe | readWordBe => exact h
  | writeByte => exact flagsConsistent_written _ (.inr h)
  | writeWordLe | writeWordBe | reset => exact flagsConsistent_written _ (.inr (flagsConsistent_written _ (.inr h)))

/-! ### The bytes read afterwards -/

/-- The visible bank covers the address, but for BASIC-ROM past its end. -/
theorem visibleBank_bounds (f : Flags) (a : Addr) :
    bankBase (visibleBank f a) ≤ a.toNat ∧
      (a.toNat < bankBase (visibleBank f a) + bankLength (visibleBank f a) ∨
        visibleBank f a = .basicRom ∧ PastBasic f a) := by
  have hlt := a.isLt
  unfold visibleBank PastBasic
  split_ifs <;> simp [bankBase, bankLength, *] <;> omega

theorem visibleBank_of_pastBasic {f : Flags} {a : Addr} (h : PastBasic f a) : visibleBank f a = .basicRom := by
  obtain ⟨hon, hlo, hhi⟩ := h
  unfold visibleBank
  rw [if_neg (by omega), if_pos hhi, if_pos hon]

theorem not_pastBasic_of_writeVisible {f : Flags} {a : Addr} (h : writeVisible f a = true) : ¬ PastBasic f a := by
  intro hp
  rw [writeVisible, visibleBank_of_pastBasic hp] at h
  cases h

/-- The bank under a visible write is the visible bank itself. -/
theorem storeBank_of_writeVisible {f : Flags} {a : Addr} (h : writeVisible f a = true) :
    storeBank (visibleBank f a) = visibleBank f a := by
  rw [writeVisible, Bool.not_eq_true'] at h
  rw [storeBank, h]
  rfl

theorem storeBank_of_not_writeVisible {f : Flags} {a : Addr} (h : writeVisible f a = false) :
    storeBank (visibleBank f a) = .ram := by
  rw [writeVisible, Bool.not_eq_false'] at h
  rw [storeBank, h]
  rfl

/-- The latch lies below every window, so a write there leaves the visible bank of its own address. -/
theorem visibleBank_written_self (s : State) (a : Addr) (v : Byte) :
    visibleBank (s.written a v).flags a = visibleBank s.flags a :=
  visibleBank_written s a a v fun h => by rw [h]; decide

theorem writeVisible_written_self (s : State) (a : Addr) (v : Byte) :
    writeVisible (s.written a v).flags a = writeVisible s.flags a := by
  rw [writeVisible, visibleBank_written_self, writeVisible]

theorem visibleByte_written_self {s : State} {a : Addr} (v : Byte) (h : writeVisible s.flags a = true) :
    (s.written a v).visibleByte a = v := by
  rw [State.visibleByte, visibleBank_written_self, State.written_byteAt, storeBank_of_writeVisible h]
  exact if_pos ⟨rfl, rfl⟩

/-- A byte write leaves what another address reads, unless it stores the latch and the other lies in a window. -/
theorem visibleByte_written_other {s : State} {a b : Addr} (v : Byte) (hab : b ≠ a)
    (hlatch : a = latchAddr → b.toNat ≤ 0x9FFF) : (s.written a v).visibleByte b = s.visibleByte b := by
  rw [State.visibleByte, visibleBank_written s a b v hlatch, State.written_byteAt, if_neg]
  · rfl
  · rintro ⟨hbank, hindex⟩
    have ha := bankBase_storeBank_le s.flags a
    have hb := (visibleBank_bounds s.flags b).1
    rw [hbank] at hindex hb
    exact hab (BitVec.eq_of_toNat_eq (by omega))

end Sys2Proof.Machine
end

section
/-! What every step keeps, and what runs of any length keep (`10_state.md` rules R26, R28 and R29, `60_exceptions.md`
rule R166). -/

namespace Sys2Proof.Machine

open Sys2Proof.Claims

/-- A property that every operation keeps and that does not look at the pending requests is kept by every step. -/
theorem step_keeps {P : State → Prop} (hrequests : ∀ s rest, P s → P { s with requests := rest })
    (hexec : ∀ i s t, P s → exec i s = .next t → P t) {s t : State} (h : P s) (hstep : step s = .next t) : P t := by
  rcases step_cases hstep with ⟨-, rfl⟩ | ⟨w, rest, i, -, -, he⟩
  · exact h
  · exact hexec i _ t (hrequests s rest h) he

/-- A property that every operation's effect keeps, and that looks at neither the fault nor the responses, is kept by
every operation. -/
theorem exec_keeps {P : State → Prop} (hanswer : ∀ s x rs, P s → P { s with fault := x, responses := rs })
    (heffect : ∀ i s, P s → P (s.effect i)) (i : Instr) (s t : State) (h : P s) (he : exec i s = .next t) : P t := by
  rcases exec_inversion he with ⟨f, -, rfl⟩ | ⟨f, -, -, rfl⟩ | ⟨-, -, rfl⟩
  · exact hanswer s _ _ h
  · exact hanswer s _ _ h
  · exact hanswer _ _ _ (heffect i s h)

theorem wf_effect (i : Instr) {s : State} (h : s.wf = true) : (s.effect i).wf = true := by
  cases i with
  | readByte | readWordLe | readWordBe => exact h
  | writeByte => exact State.wf_written h _ _
  | writeWordLe | writeWordBe | reset => exact State.wf_written (State.wf_written h _ _) _ _

/-- Settles O49. A store keeps a bank canonical and inside its length, and nothing writes a cartridge flag. -/
theorem stepKeepsBanksCanonicalAndCartsFalse : Obligations.StepKeepsBanksCanonicalAndCartsFalse :=
  fun _ _ => step_keeps (P := fun s => s.wf = true) (fun _ _ h => h)
    (exec_keeps (fun _ _ _ h => h) fun i _ h => wf_effect i h)

/-- Settles O50. A byte write at the latch address derives the flags from the byte it stores; no other byte write
changes the latch byte or the flags, and every effect is a chain of byte writes. -/
theorem stepKeepsFlagsConsistent : Obligations.StepKeepsFlagsConsistent :=
  fun _ _ => step_keeps (P := fun s => s.flagsConsistent = true) (fun _ _ h => h)
    (exec_keeps (fun _ _ _ h => h) fun i _ h => flagsConsistent_effect i h)

/-- The induction over runs: what every step keeps, counting the steps, holds after `n` of them. -/
theorem run_keeps {P : Nat → State → Prop} (hstep : ∀ n s t, P n s → step s = .next t → P (n + 1) t) {n k : Nat}
    {s t : State} (h : P k s) (hrun : Sys2Proof.core.run n s = .next t) : P (k + n) t := by
  induction n generalizing k s with
  | zero => exact Host.Outcome.next.inj hrun ▸ h
  | succ n ih =>
    obtain ⟨u, hu, hrest⟩ := run_succ_inv hrun
    exact Nat.add_right_comm k 1 n ▸ ih (hstep k s u h hu) hrest

/-- What the steps of a faulted block leave of its state `s`: at most `n` more responses, all with the fault's code. -/
def StaysFaulted (s : State) (f : Fault) (n : Nat) (t : State) : Prop :=
  t.fault = some f ∧ (∀ k, t.bank k = s.bank k) ∧ t.flags = s.flags ∧
    ∃ m, m ≤ n ∧ t.responses = s.responses ++ List.replicate m (.fault (faultCode f))

theorem step_staysFaulted {s t u : State} {f : Fault} {n : Nat} (h : StaysFaulted s f n t) (hstep : step t = .next u) :
    StaysFaulted s f (n + 1) u := by
  obtain ⟨hfault, hbank, hflags, m, hm, hresp⟩ := h
  rcases step_cases hstep with ⟨-, rfl⟩ | ⟨w, rest, i, -, -, he⟩
  · exact ⟨hfault, hbank, hflags, m, by omega, hresp⟩
  · rw [exec_of_faulted i (s := { t with requests := rest }) hfault] at he
    obtain rfl := Host.Outcome.next.inj he
    refine ⟨hfault, fun k => ?bank, hflags, m + 1, by omega, ?responses⟩
    case bank => rw [State.respond_bank, ← hbank k]; cases k <;> rfl
    case responses => rw [List.replicate_succ', ← List.append_assoc, ← hresp]; rfl

/-- Settles O42. Each step of a faulted block answers the fault's code or stays idle, and leaves the rest. -/
theorem faultIsNeverCleared : Obligations.FaultIsNeverCleared := by
  intro n s t f hf hrun
  have hstart : StaysFaulted s f 0 s := ⟨hf, fun _ => rfl, rfl, 0, Nat.le_refl 0, (List.append_nil _).symm⟩
  have hend := run_keeps (P := StaysFaulted s f) (fun _ _ _ => step_staysFaulted) hstart hrun
  rwa [Nat.zero_add] at hend

/-- The ROMs and the cartridge flags of `t` are those of `s`. -/
def SameConstants (s t : State) : Prop :=
  t.basic = s.basic ∧ t.char = s.char ∧ t.kernal = s.kernal ∧ t.cartA = s.cartA ∧ t.cartB = s.cartB

theorem exec_sameConstants {i : Instr} {s t u : State} (h : SameConstants s t) (he : exec i t = .next u) :
    SameConstants s u := by
  obtain ⟨h1, h2, h3, h4, h5⟩ := h
  obtain ⟨h1', h2', h3', h4', h5', -⟩ := exec_sameElsewhere he
  exact ⟨h1'.trans h1, h2'.trans h2, h3'.trans h3, h4'.trans h4, h5'.trans h5⟩

/-- Settles O52. No operation changes a ROM or a cartridge flag (`exec_sameElsewhere`), so no step and no run does. -/
theorem runsNeverChangeRomsOrCartFlags : Obligations.RunsNeverChangeRomsOrCartFlags :=
  fun _ s _ => run_keeps (P := fun _ => SameConstants s) (k := 0)
    (fun _ _ _ => step_keeps (fun _ _ h => h) fun _ _ _ => exec_sameConstants) ⟨rfl, rfl, rfl, rfl, rfl⟩

end Sys2Proof.Machine
end

section
/-! One response per operation (`30_encoding.md` rules R88 and R91). -/

namespace Sys2Proof.Machine

open Sys2Proof.Claims

theorem answers_fault (i : Instr) (code : Nat) : answers i (.fault code) := by cases i <;> trivial

theorem answers_answer (s : State) (i : Instr) : answers i (s.answer i) := by cases i <;> trivial

theorem exec_answers {i : Instr} {s t : State} (h : exec i s = .next t) :
    ∃ r, t.responses = s.responses ++ [r] ∧ answers i r := by
  rcases exec_inversion h with ⟨f, -, rfl⟩ | ⟨f, -, -, rfl⟩ | ⟨-, -, rfl⟩
  · exact ⟨_, rfl, answers_fault i _⟩
  · exact ⟨_, rfl, answers_fault i _⟩
  · exact ⟨_, by simp, answers_answer s i⟩

/-- The steps over an encoded program at the front of the queue, each taking one word and answering it. -/
theorem run_program_answers (program : List Instr) {s : State} (hq : s.requests = program.map encode) :
    ∃ t rs, Sys2Proof.core.run program.length s = .next t ∧ t.requests = [] ∧
      t.responses = s.responses ++ rs ∧ List.Forall₂ answers program rs := by
  induction program generalizing s with
  | nil => exact ⟨s, [], run_zero s, hq, (List.append_nil _).symm, .nil⟩
  | cons i rest ih =>
    obtain ⟨u, hu⟩ := exec_next i { s with requests := rest.map encode }
    have hstep : step s = .next u := (step_of_decode hq (decode_encode i)).trans hu
    obtain ⟨r, hr, hi⟩ := exec_answers hu
    obtain ⟨t, rs, hrun, ht, hrs, hall⟩ := ih (exec_responds hu).1
    refine ⟨t, r :: rs, (run_succ_next _ hstep).trans hrun, ht, ?_, .cons hi hall⟩
    rw [hrs, hr, List.append_assoc]
    rfl

/-- Settles O53. Issued to an empty queue, a program is the whole queue. -/
theorem everyProgramGetsOneResponsePerOperation : Obligations.EveryProgramGetsOneResponsePerOperation := by
  intro program s hq
  refine run_program_answers program ?_
  rw [State.issueProgram, State.issue_requests, hq, List.nil_append]

end Sys2Proof.Machine
end

section
/-! Where a run ends (`70_reset_and_hazards.md` rule R192): behind requests answered without a fault it stops with
nothing pending, after a response `Fault(code)`, or before a reserved word. -/

namespace Sys2Proof.Machine

open Sys2Proof.Claims

/-- From `s` the block takes one pending word per response of `rs` and answers it with that response, which leaves
`t`. -/
inductive Answered : State → List Response → State → Prop
  | nil (s : State) : Answered s [] s
  | cons {s u t : State} {w : ReqWord} {r : Response} {rs : List Response} (hq : s.requests = w :: u.requests)
      (hs : step s = .next u) (hresp : u.responses = s.responses ++ [r]) (rest : Answered u rs t) :
      Answered s (r :: rs) t

/-- None of the responses is `Fault(code)`. -/
def NoFault (rs : List Response) : Prop := ∀ r ∈ rs, ∀ code, r ≠ .fault code

theorem isFaultResponse_eq_false_iff (r : Response) : isFaultResponse r = false ↔ ∀ code, r ≠ .fault code := by
  rw [Bool.eq_false_iff, Ne, isFaultResponse_iff, not_exists]

theorem noFault_nil : NoFault [] := nofun

theorem noFault_cons {r : Response} {rs : List Response} :
    NoFault (r :: rs) ↔ isFaultResponse r = false ∧ NoFault rs := by
  rw [isFaultResponse_eq_false_iff]
  exact List.forall_mem_cons

namespace Answered
variable {s t u : State} {rs : List Response}

theorem responses (h : Answered s rs t) : t.responses = s.responses ++ rs := by
  induction h with
  | nil => exact (List.append_nil _).symm
  | cons _ _ hresp _ ih => rw [ih, hresp, List.append_assoc, List.singleton_append]

theorem requests (h : Answered s rs t) : ∃ taken, s.requests = taken ++ t.requests ∧ taken.length = rs.length := by
  induction h with
  | nil => exact ⟨[], rfl, rfl⟩
  | @cons _ _ _ w _ _ hq _ _ _ ih =>
    obtain ⟨taken, htaken, hlen⟩ := ih
    exact ⟨w :: taken, by rw [hq, htaken, List.cons_append], congrArg (· + 1) hlen⟩

theorem core_run (h : Answered s rs t) : Sys2Proof.core.run rs.length s = .next t := by
  induction h with
  | nil s => exact run_zero s
  | cons _ hs _ _ ih => exact (run_succ_next _ hs).trans ih

theorem split_append {rs' : List Response} (h : Answered s (rs ++ rs') u) :
    ∃ t, Answered s rs t ∧ Answered t rs' u := by
  induction rs generalizing s with
  | nil => exact ⟨s, .nil s, h⟩
  | cons r rs ih =>
    cases h with
    | cons hq hs hresp rest =>
      obtain ⟨t, h1, h2⟩ := ih rest
      exact ⟨t, .cons hq hs hresp h1, h2⟩

end Answered

/-- As long as words are pending, each step that does not refuse takes one and answers it. -/
theorem exists_answered {n : Nat} {s t : State} (hrun : Sys2Proof.core.run n s = .next t)
    (hlen : n ≤ s.requests.length) : ∃ rs, rs.length = n ∧ Answered s rs t := by
  induction n generalizing s with
  | zero => exact ⟨[], rfl, Host.Outcome.next.inj hrun ▸ .nil s⟩
  | succ n ih =>
    obtain ⟨u, hs, hrest⟩ := run_succ_inv hrun
    obtain ⟨w, after, hq⟩ := List.exists_cons_of_length_pos (Nat.zero_lt_of_lt hlen)
    rcases step_request hq with ⟨why, -, hs'⟩ | ⟨u', ⟨i, hd⟩, hs', rfl, -⟩
    · cases hs.symm.trans hs'
    · obtain rfl := Host.Outcome.next.inj (hs.symm.trans hs')
      obtain ⟨rs, hrs, hanswered⟩ := ih hrest (by simpa [hq] using hlen)
      obtain ⟨r, hr, -⟩ := exec_answers ((step_of_decode hq hd).symm.trans hs)
      exact ⟨r :: rs, congrArg (· + 1) hrs, .cons hq hs hr hanswered⟩

theorem answered_iff {s t : State} {rs : List Response} (hlen : rs.length ≤ s.requests.length) :
    Answered s rs t ↔ Sys2Proof.core.run rs.length s = .next t ∧ t.responses = s.responses ++ rs := by
  constructor
  · intro h
    exact ⟨h.core_run, h.responses⟩
  · rintro ⟨hrun, hresp⟩
    obtain ⟨rs', -, h⟩ := exists_answered hrun hlen
    obtain rfl : rs' = rs := List.append_cancel_left (h.responses.symm.trans hresp)
    exact h

/-- A response `Fault(code)` carries the code of the fault the block holds behind it. -/
theorem Answered.fault_of_last {s t : State} {rs : List Response} {code : Nat}
    (h : Answered s (rs ++ [.fault code]) t) : ∃ f, t.fault = some f ∧ code = faultCode f := by
  obtain ⟨u, -, hlast⟩ := h.split_append
  cases hlast with
  | cons hq hs hresp rest =>
    cases rest
    rcases step_request hq with ⟨why, -, hs'⟩ | ⟨t', -, hs', -, hone⟩
    · cases hs.symm.trans hs'
    · obtain rfl := Host.Outcome.next.inj (hs.symm.trans hs')
      rcases hone with ⟨f, hf, hresp'⟩ | ⟨-, r, hr, hresp'⟩
      · refine ⟨f, hf, ?_⟩
        simpa using hresp.symm.trans hresp'
      · obtain rfl : Response.fault code = r := by simpa using hresp.symm.trans hresp'
        cases hr

/-- One request of a run, by its response. -/
theorem run_of_step {s u : State} {w : ReqWord} {r : Response} (hq : s.requests = w :: u.requests)
    (hs : step s = .next u) (hresp : u.responses = s.responses ++ [r]) :
    s.run = if isFaultResponse r then .faulted u else u.run := by
  have hn : s.run = s.runFor (u.requests.length + 1) := by rw [State.run, hq]; rfl
  have hu : u.answeredFault = isFaultResponse r := State.answeredFault_of_append hresp
  rw [hn]
  cases hr : isFaultResponse r with
  | true => exact runFor_faulted hs (hu.trans hr)
  | false => exact runFor_next hs (hu.trans hr)

theorem run_of_reserved {s : State} {w : ReqWord} {after : List ReqWord} {why : Rejection}
    (hq : s.requests = w :: after) (hd : decode w = .error why) : s.run = .refused (.reservedRequest why) s := by
  have hn : s.run = s.runFor (after.length + 1) := by rw [State.run, hq]; rfl
  rw [hn]
  exact runFor_refused (by simp only [step, State.takeRequest, hq, hd])

theorem Answered.run_eq {s t : State} {rs : List Response} (h : Answered s rs t) (hnf : NoFault rs) :
    s.run = t.run := by
  induction h with
  | nil => rfl
  | cons hq hs hresp _ ih =>
    obtain ⟨hr, hrest⟩ := noFault_cons.mp hnf
    rw [run_of_step hq hs hresp, hr]
    exact ih hrest

/-- What each end of a run says of the run (rule R192). -/
def EndsAs (s : State) : RunEnd → Prop
  | .completed t => ∃ rs, NoFault rs ∧ Answered s rs t ∧ t.requests = []
  | .faulted t => ∃ rs code, NoFault rs ∧ Answered s (rs ++ [.fault code]) t
  | .refused why t => ∃ rs w after reason, NoFault rs ∧ Answered s rs t ∧ t.requests = w :: after ∧
      decode w = .error reason ∧ why = .reservedRequest reason

/-- A request answered without a fault goes in front of whatever the rest of the run does. -/
theorem EndsAs.cons {s u : State} {w : ReqWord} {r : Response} {e : RunEnd} (hq : s.requests = w :: u.requests)
    (hs : step s = .next u) (hresp : u.responses = s.responses ++ [r]) (hr : isFaultResponse r = false)
    (h : EndsAs u e) : EndsAs s e := by
  cases e with
  | completed t =>
    obtain ⟨rs, hnf, hrest, hend⟩ := h
    exact ⟨r :: rs, noFault_cons.mpr ⟨hr, hnf⟩, .cons hq hs hresp hrest, hend⟩
  | faulted t =>
    obtain ⟨rs, code, hnf, hrest⟩ := h
    exact ⟨r :: rs, code, noFault_cons.mpr ⟨hr, hnf⟩, .cons hq hs hresp hrest⟩
  | refused why t =>
    obtain ⟨rs, w', after, reason, hnf, hrest, hend⟩ := h
    exact ⟨r :: rs, w', after, reason, noFault_cons.mpr ⟨hr, hnf⟩, .cons hq hs hresp hrest, hend⟩

theorem run_endsAs (s : State) : EndsAs s s.run := by
  generalize hn : s.requests.length = n
  induction n generalizing s with
  | zero =>
    have hq := List.length_eq_zero_iff.mp hn
    rw [run_nil hq]
    exact ⟨[], noFault_nil, .nil s, hq⟩
  | succ n ih =>
    obtain ⟨w, after, hq⟩ := List.exists_cons_of_length_eq_add_one hn
    rcases run_cons hq with ⟨why, hd, hrun⟩ | ⟨u, f, hs, rfl, -, hresp, hrun⟩ | ⟨u, r, hs, rfl, -, hr, hresp, hrun⟩ <;>
      rw [hrun]
    · exact ⟨[], w, after, why, noFault_nil, .nil s, hq, hd, rfl⟩
    · exact ⟨[], faultCode f, noFault_nil, .cons hq hs hresp (.nil u)⟩
    · exact (ih u (by simpa [hq] using hn)).cons hq hs hresp hr

theorem run_eq_of_endsAs {s : State} {e : RunEnd} (h : EndsAs s e) : s.run = e := by
  cases e with
  | completed t =>
    obtain ⟨rs, hnf, hanswered, hq⟩ := h
    rw [hanswered.run_eq hnf, run_nil hq]
  | faulted t =>
    obtain ⟨rs, code, hnf, hanswered⟩ := h
    obtain ⟨u, hbefore, hlast⟩ := hanswered.split_append
    rw [hbefore.run_eq hnf]
    cases hlast with
    | cons hq hs hresp rest =>
      cases rest
      exact run_of_step hq hs hresp
  | refused why t =>
    obtain ⟨rs, w, after, reason, hnf, hanswered, hq, hd, rfl⟩ := h
    rw [hanswered.run_eq hnf, run_of_reserved hq hd]

theorem run_eq_iff (s : State) (e : RunEnd) : s.run = e ↔ EndsAs s e := by
  constructor
  · rintro rfl
    exact run_endsAs s
  · exact run_eq_of_endsAs

/-! ### The three ends in terms of the steps of the block -/

section Ends
variable (s t : State)

theorem run_eq_completed_iff : s.run = .completed t ↔
    Sys2Proof.core.run s.requests.length s = .next t ∧ t.requests = [] ∧
      ∃ rs, t.responses = s.responses ++ rs ∧ rs.length = s.requests.length ∧ NoFault rs := by
  rw [run_eq_iff]
  constructor
  · rintro ⟨rs, hnf, h, hq⟩
    obtain ⟨taken, htaken, hlen⟩ := h.requests
    rw [hq, List.append_nil] at htaken
    have hrs : rs.length = s.requests.length := by rw [htaken, hlen]
    exact ⟨hrs ▸ h.core_run, hq, rs, h.responses, hrs, hnf⟩
  · rintro ⟨hrun, hq, rs, hresp, hrs, hnf⟩
    exact ⟨rs, hnf, (answered_iff hrs.le).mpr ⟨hrs ▸ hrun, hresp⟩, hq⟩

theorem run_eq_faulted_iff : s.run = .faulted t ↔
    ∃ before w after rs code, s.requests = before ++ w :: after ∧
      Sys2Proof.core.run (before.length + 1) s = .next t ∧ t.requests = after ∧
      t.responses = s.responses ++ rs ++ [.fault code] ∧ rs.length = before.length ∧ NoFault rs := by
  rw [run_eq_iff]
  constructor
  · rintro ⟨rs, code, hnf, h⟩
    obtain ⟨u, hbefore, hlast⟩ := h.split_append
    obtain ⟨before, hreq, hlen⟩ := hbefore.requests
    have hrun := h.core_run
    rw [List.length_append, ← hlen] at hrun
    have hresp := h.responses
    rw [← List.append_assoc] at hresp
    cases hlast with
    | @cons _ _ _ w _ _ hq _ _ rest =>
      cases rest
      exact ⟨before, w, t.requests, rs, code, by rw [hreq, hq], hrun, rfl, hresp, hlen.symm, hnf⟩
  · rintro ⟨before, w, after, rs, code, hreq, hrun, -, hresp, hlen, hnf⟩
    refine ⟨rs, code, hnf, (answered_iff ?_).mpr ⟨?_, ?_⟩⟩
    · simp [hreq, hlen]
    · rwa [List.length_append, hlen]
    · rw [hresp, List.append_assoc]

theorem run_eq_refused_iff (why : Refusal) : s.run = .refused why t ↔
    ∃ before w after rs reason, s.requests = before ++ w :: after ∧
      Sys2Proof.core.run before.length s = .next t ∧ t.requests = w :: after ∧
      decode w = .error reason ∧ why = .reservedRequest reason ∧
      t.responses = s.responses ++ rs ∧ rs.length = before.length ∧ NoFault rs := by
  rw [run_eq_iff]
  constructor
  · rintro ⟨rs, w, after, reason, hnf, h, hq, hd, hwhy⟩
    obtain ⟨before, hreq, hlen⟩ := h.requests
    exact ⟨before, w, after, rs, reason, hq ▸ hreq, hlen ▸ h.core_run, hq, hd, hwhy, h.responses, hlen.symm, hnf⟩
  · rintro ⟨before, w, after, rs, reason, hreq, hrun, hq, hd, hwhy, hresp, hlen, hnf⟩
    refine ⟨rs, w, after, reason, hnf, (answered_iff ?_).mpr ⟨hlen ▸ hrun, hresp⟩, hq, hd, hwhy⟩
    simp [hreq, hlen]

end Ends

theorem issue_requests_of_nil {s : State} (h : s.requests = []) (words : List ReqWord) :
    (s.issue words).requests = words := by
  rw [State.issue_requests, h, List.nil_append]

/-- Settles O54. Issued to an empty queue the words are the whole queue, and a run has one characterisation per end. -/
theorem runEndsAtLastResponseFirstFaultOrFirstRefusal : Obligations.RunEndsAtLastResponseFirstFaultOrFirstRefusal := by
  intro s words hq
  have hissued := issue_requests_of_nil hq words
  refine ⟨fun t => ?completed, fun t => ?faulted, fun why t => ?refused⟩
  case completed => rw [run_eq_completed_iff, hissued]; rfl
  case faulted => rw [run_eq_faulted_iff, hissued]; rfl
  case refused => rw [run_eq_refused_iff, hissued]; rfl

/-! ### Final runs -/

/-- A run's end state holds the responses given before it and then the run's own, at most one per pending word. -/
theorem run_state_responses (s : State) :
    ∃ rs, s.run.state.responses = s.responses ++ rs ∧ rs.length ≤ s.requests.length := by
  have hanswered : ∃ rs, Answered s rs s.run.state := by
    have h := run_endsAs s
    cases hrun : s.run with
    | completed t => rw [hrun] at h; obtain ⟨rs, -, h, -⟩ := h; exact ⟨rs, h⟩
    | faulted t => rw [hrun] at h; obtain ⟨rs, code, -, h⟩ := h; exact ⟨_, h⟩
    | refused why t => rw [hrun] at h; obtain ⟨rs, _, _, _, -, h, -⟩ := h; exact ⟨rs, h⟩
  obtain ⟨rs, h⟩ := hanswered
  obtain ⟨taken, htaken, hlen⟩ := h.requests
  refine ⟨rs, h.responses, ?_⟩
  rw [htaken, List.length_append, hlen]
  exact Nat.le_add_right _ _

theorem run_final_iff (s : State) : s.run.final = true ↔ ∃ t, s.run = .completed t ∧ t.fault = none := by
  have h := run_endsAs s
  cases hrun : s.run with
  | completed t =>
    rw [hrun] at h
    obtain ⟨-, -, -, hq⟩ := h
    simp [RunEnd.final, State.final, hq]
  | faulted t => simp [RunEnd.final]
  | refused why t => simp [RunEnd.final]

theorem run_faulted_record {s t : State} (h : s.run = .faulted t) :
    ∃ f, t.fault = some f ∧ t.responses.getLast? = some (.fault (faultCode f)) := by
  obtain ⟨rs, code, -, hanswered⟩ := (run_eq_iff _ _).mp h
  obtain ⟨f, hf, rfl⟩ := hanswered.fault_of_last
  exact ⟨f, hf, by rw [hanswered.responses, ← List.append_assoc, List.getLast?_concat]⟩

/-- Settles O55. A completed run leaves nothing pending; a run's own responses are those past the ones given before. -/
theorem runIsFinalOnlyWhenCompletedWithoutFault : Obligations.RunIsFinalOnlyWhenCompletedWithoutFault := by
  intro s words hq
  refine ⟨run_final_iff _, fun t => run_faulted_record, ?result⟩
  case result =>
    obtain ⟨rs, hrs, hlen⟩ := run_state_responses (s.issue words)
    rw [issue_requests_of_nil hq] at hlen
    refine ⟨_, rs, rfl, hrs, hlen, ?_⟩
    rw [State.runResult, hrs, List.drop_left]

theorem expectedFault_of_faultFree {i : Instr} (h : faultFree i) (f : Flags) : expectedFault f i = none := by
  cases i with
  | readByte a =>
    refine (readFault_eq_none_iff f a).mpr fun ⟨_, hlo, hhi⟩ => ?_
    simp only [faultFree] at h
    omega
  | readWordLe a | readWordBe a =>
    refine (wordReadFault_eq_none_iff f a).mpr ⟨h.1, fun ⟨_, hlo, hhi⟩ => ?_⟩
    simp only [faultFree] at h
    omega
  | writeWordLe a | writeWordBe a => exact (topFault_eq_none_iff a).mpr h
  | writeByte | reset => rfl

/-- A program at the front of the queue that cannot fault is answered to its end. -/
theorem run_of_faultFree {program : List Instr} (hfree : ∀ i ∈ program, faultFree i) {s : State}
    (hq : s.requests = program.map encode) (hf : s.fault = none) :
    ∃ t, s.run = .completed t ∧ t.final = true := by
  induction program generalizing s with
  | nil => exact ⟨s, run_nil hq, by simp [State.final, hq, hf]⟩
  | cons i rest ih =>
    have hcompletes := exec_completes (s := { s with requests := rest.map encode }) hf
      (expectedFault_of_faultFree (hfree i List.mem_cons_self) _)
    have hs := (step_of_decode hq (decode_encode i)).trans hcompletes
    rcases run_cons hq with ⟨why, hd, -⟩ | ⟨u, f, hs', -, hu, -⟩ | ⟨u, r, hs', hrest, hu, -, -, hrun⟩
    · cases hd.symm.trans (decode_encode i)
    · obtain rfl := Host.Outcome.next.inj (hs.symm.trans hs')
      simp [hf] at hu
    · rw [hrun]
      exact ih (fun j hj => hfree j (List.mem_cons_of_mem i hj)) hrest hu

/-- Settles O56. No operation of the program has a listed fault under any flags, so every one completes. -/
theorem programsAvoidingTheHazardsRunSafely : Obligations.ProgramsAvoidingTheHazardsRunSafely :=
  fun program _ hf hq hfree => run_of_faultFree hfree (issue_requests_of_nil hq (program.map encode)) hf

end Sys2Proof.Machine
end

section
/-! The bank storage, the bank write, and what the decoder and the arbiter give on every 16-bit address
(`40_bank.md` rules R102 and R103, `41_decode.md` rules R110 to R116, `30_encoding.md` rules R81 and R84). -/

namespace Sys2Proof.Machine

open Sys2Proof.Claims

/-- Settles O9, by the law of a read after a store (`Memory.read_write`). -/
theorem storedByteReadsBackAtItsIndexOnly : Obligations.StoredByteReadsBackAtItsIndexOnly :=
  Memory.read_write

theorem bankWrite_readOnly {k : BankKind} (hk : bankReadOnly k = true) (a : Nat) (v : Byte) (s : State) :
    bankWrite k a v s = .error (.writeToReadOnly k a) := by rw [bankWrite, if_pos hk]

/-- The bank the arbiter selects has the cell a 16-bit address names. -/
theorem bankWrite_storeBank (f : Flags) (a : Addr) (v : Byte) (s : State) :
    ∃ t, bankWrite (storeBank (visibleBank f a)) a.toNat v s = .ok t := by
  have hlo := bankBase_storeBank_le f a
  have hlt := (storedCell_addr f a).2
  rw [bankWrite_eq (bankReadOnly_storeBank _), if_pos ⟨hlo, by omega⟩]
  exact ⟨_, rfl⟩

/-- The listed faults are a word operation at 0xFFFF and a read past BASIC-ROM. -/
theorem expectedFault_ne_writeToReadOnly (f : Flags) (i : Instr) (k : BankKind) (a : Nat) :
    expectedFault f i ≠ some (.writeToReadOnly k a) := by
  cases i with
  | readByte => simp only [expectedFault, expectedFault.readFault]; split <;> simp
  | readWordLe | readWordBe =>
    simp only [expectedFault, expectedFault.wordReadFault, expectedFault.readFault]; split_ifs <;> simp
  | writeWordLe | writeWordBe => simp only [expectedFault, expectedFault.topFault]; split <;> simp
  | writeByte | reset => exact nofun

/-- Settles O11. `bankWrite_eq` and `bankWrite_readOnly` are the pseudocode of the two sorts of bank; a 16-bit address
always has its cell in the arbiter's bank, and WRITE_TO_READ_ONLY is not among the listed faults. -/
theorem bankWriteStoresOrRaises : Obligations.BankWriteStoresOrRaises := by
  intro s a v
  refine ⟨?ram, bankWrite_eq (k := .ioWindow) rfl a v s, bankWrite_readOnly rfl a v s, bankWrite_readOnly rfl a v s,
    bankWrite_readOnly rfl a v s, ?target, ?unreachable⟩
  case ram =>
    rw [bankWrite_eq rfl]
    simp [bankBase, bankLength, State.bank, State.setBank]
  case target =>
    intro k ha htarget
    obtain ⟨x, rfl⟩ : ∃ x : Addr, x.toNat = a := ⟨BitVec.ofNatLT a ha, rfl⟩
    rw [writeTarget_of_resolve_ok (resolve_addr s.flags x)] at htarget
    obtain rfl := Except.ok.inj htarget
    exact bankWrite_storeBank s.flags x v s
  case unreachable =>
    intro i t k b hf he
    rcases exec_inversion he with ⟨f, hf', -⟩ | ⟨f, -, hlisted, rfl⟩ | ⟨-, -, rfl⟩
    · cases hf.symm.trans hf'
    · intro h
      exact expectedFault_ne_writeToReadOnly s.flags i k b (hlisted.trans h)
    · simp [hf]

theorem storeBank_eq_ioWindow_iff (k : BankKind) : storeBank k = .ioWindow ↔ k = .ioWindow := by
  cases k <;> decide

theorem visibleBank_eq_ioWindow_iff (f : Flags) (a : Addr) : visibleBank f a = .ioWindow ↔
    0xD000 ≤ a.toNat ∧ a.toNat ≤ 0xDFFF ∧ f.chargenOn = false ∧ f.ioOn = true := by
  unfold visibleBank
  split_ifs <;> simp [*] <;> omega

/-- Settles O14. The arbiter's bank is `storeBank` of the visible bank, which is the I/O window only where that is
visible. -/
theorem writeTargetIsRamOrIoWindow : Obligations.WriteTargetIsRamOrIoWindow := by
  intro f a
  rw [writeTarget_of_resolve_ok (resolve_addr f a)]
  simp only [Except.ok.injEq]
  refine ⟨?_, ?_⟩
  · rcases storeBank_visibleBank f a with h | ⟨h, -⟩
    · exact .inl h
    · exact .inr h
  · rw [storeBank_eq_ioWindow_iff, visibleBank_eq_ioWindow_iff]

/-- The visible bank of a region: a row of the decoding table by the region field of rule R81. -/
def regionBank (f : Flags) : Region → BankKind
  | .low => .ram
  | .basicWindow => if f.basicOn then .basicRom else .ram
  | .dWindow => if f.chargenOn then .characterRom else if f.ioOn then .ioWindow else .ram
  | .kernalWindow => if f.kernalOn then .kernalRom else .ram

theorem visibleBank_eq_regionBank (f : Flags) (a : Addr) : visibleBank f a = regionBank f (regionOf a) := by
  rw [regionOf_eq, visibleBank, apply_ite (regionBank f), apply_ite (regionBank f), apply_ite (regionBank f)]
  rfl

theorem resolve_region (f : Flags) (a : Addr) : resolve f a.toNat = .ok (regionBank f (regionOf a)) := by
  rw [resolve_addr, visibleBank_eq_regionBank]

/-- Settles O15. RESOLVE is a function of the flags and the region, and the region one of the four high bits. -/
theorem regionFieldSelectsTheBank : Obligations.RegionFieldSelectsTheBank := by
  intro f a
  rw [resolve_region]
  refine ⟨?_, ?_, ?_, ?_, ?sameField⟩
  case sameField =>
    intro b hfield
    have hregion : regionOf a = regionOf b := by rw [regionOf, regionOf, hfield]
    rw [resolve_region, hregion]
  all_goals
    intro h
    rw [h]
    rfl

/-- Settles O17. The visible bank covers its address but for BASIC-ROM past its end, and an index in a storage is the
address less the base. -/
theorem bankIndexLeavesStorageOnlyPastBasic : Obligations.BankIndexLeavesStorageOnlyPastBasic := by
  intro f a k hres
  obtain rfl := visibleBank_of_resolve hres
  obtain ⟨hbase, hcover⟩ := visibleBank_bounds f a
  unfold bankIndex
  refine ⟨⟨?outside, ?pastBasic⟩, ?inside⟩
  case outside =>
    intro hnone
    rcases hcover with hlt | ⟨hbasic, -, hrange⟩
    · rw [if_pos ⟨hbase, by omega⟩] at hnone
      cases hnone
    · exact ⟨hbasic, hrange⟩
  case pastBasic =>
    rintro ⟨hbasic, hlo, hhi⟩
    rw [hbasic]
    exact if_neg fun ⟨_, h⟩ => by simp only [bankBase, bankLength] at h; omega
  case inside =>
    intro i hi
    split at hi
    · next h =>
      obtain rfl := Option.some.inj hi
      exact ⟨by omega, h.2⟩
    · cases hi

end Sys2Proof.Machine
end

section
/-! The flags of each latch value, the banks they make visible, and the operations that change them (`42_latch.md`
rules R120 to R125, `41_decode.md` rule R116). -/

namespace Sys2Proof.Machine

open Sys2Proof.Claims

/-- The latch value is the latch byte modulo 8: the mask 7 keeps the three low bits. -/
theorem latchValue_eq (b : Byte) : latchValue b = BitVec.ofNat 8 (b.toNat % 8) := by
  have hmask : (latchValue b).toNat = b.toNat % 8 := Nat.and_two_pow_sub_one_eq_mod b.toNat 3
  rw [← hmask, BitVec.ofNat_toNat, BitVec.setWidth_eq]

/-- DERIVE looks at the latch value only, so rule R121's eight rows are all there is. -/
theorem deriveFlags_eq_flagRow (b : Byte) : deriveFlags b = flagRow (b.toNat % 8) := by
  have hlt : b.toNat % 8 < 8 := Nat.mod_lt _ (by decide)
  unfold deriveFlags
  rw [latchValue_eq]
  generalize b.toNat % 8 = n at hlt
  interval_cases n <;> rfl

/-- The windows of each latch value are those of its flags. -/
theorem windowRow_eq {n : Nat} (hn : n < 8) : windowRow n =
    (regionBank (flagRow n) .basicWindow, regionBank (flagRow n) .dWindow, regionBank (flagRow n) .kernalWindow) := by
  interval_cases n <;> rfl

/-- Settles O16. With consistent flags the visible bank is the decoding table under the flags of the latch value, and
each window of `windowRow` is one row of that table. -/
theorem visibleBankByLatchValue : Obligations.VisibleBankByLatchValue := by
  intro s a h
  rw [resolve_addr, (flagsConsistent_iff s).mp h, deriveFlags_eq_flagRow, windowRow_eq (Nat.mod_lt _ (by decide))]
  rfl

/-- Settles O19. A latch write leaves the flags derived from the byte it stores. -/
theorem latchWriteSetsTheFlagRow : Obligations.LatchWriteSetsTheFlagRow :=
  fun s v hf => ⟨_, exec_writeByte_latch v hf, deriveFlags_eq_flagRow v, Memory.read_write_same s.ram 1 v⟩

theorem getLsbD_one_iff (b : Byte) : b.getLsbD 1 = true ↔ b.toNat / 2 % 2 = 1 := by
  rw [BitVec.getLsbD, Nat.testBit_eq_decide_div_mod_eq, decide_eq_true_iff]

theorem getLsbD_zero_iff (b : Byte) : b.getLsbD 0 = true ↔ b.toNat % 2 = 1 := by
  rw [BitVec.getLsbD, Nat.testBit_eq_decide_div_mod_eq, decide_eq_true_iff, Nat.pow_zero, Nat.div_one]

/-- Settles O20. `chargen_on` and `io_on` differ in what they ask of bit 2, and all four flags in what they ask of the
two low bits. -/
theorem derivedFlagsExcludeEachOther : Obligations.DerivedFlagsExcludeEachOther := by
  refine ⟨fun b => ⟨?exclusive, ?either, ?basicKernal, ?kernal, ?basic⟩, by decide⟩
  case exclusive =>
    rintro ⟨hchargen, hio⟩
    exact Bool.false_ne_true (((deriveFlags_chargenOn b).mp hchargen).1.symm.trans ((deriveFlags_ioOn b).mp hio).1)
  case either =>
    rw [deriveFlags_chargenOn, deriveFlags_ioOn]
    cases b.getLsbD 2 <;> simp
  case basicKernal => exact fun h => (deriveFlags_kernalOn b).mpr (.inl h)
  case kernal =>
    rw [Bool.eq_iff_iff, deriveFlags_kernalOn, deriveFlags_basicOn, getLsbD_one_iff]
    omega
  case basic =>
    rw [Bool.eq_iff_iff, Bool.and_eq_true, deriveFlags_basicOn, getLsbD_one_iff, getLsbD_zero_iff]
    omega

/-- The operations that store the latch byte. -/
def StoresLatch (i : Instr) : Prop :=
  i = .reset ∨ (∃ v, i = .writeByte 0x0001 v) ∨
    ∃ w, i = .writeWordLe 0x0000 w ∨ i = .writeWordLe 0x0001 w ∨ i = .writeWordBe 0x0000 w ∨ i = .writeWordBe 0x0001 w

/-- Two byte writes in a row leave the flags, or one is at the latch address and they leave the flags consistent. -/
theorem writtenPair_flags (s : State) (a : Addr) (b0 b1 : Byte) : (s.writtenPair a b0 b1).flags = s.flags ∨
    (s.writtenPair a b0 b1).flagsConsistent = true ∧ (a = 0x0000 ∨ a = 0x0001) := by
  by_cases h0 : a = latchAddr
  · exact .inr ⟨flagsConsistent_written _ (.inr (flagsConsistent_written _ (.inl h0))), .inr h0⟩
  by_cases h1 : a + 1 = latchAddr
  · exact .inr ⟨flagsConsistent_written _ (.inl h1), .inl (add_right_cancel (h1 : a + 1 = 0 + 1))⟩
  · exact .inl ((State.written_flags_other _ _ _ h1).trans (State.written_flags_other _ _ _ h0))

theorem effect_flags (s : State) (i : Instr) :
    (s.effect i).flags = s.flags ∨ (s.effect i).flagsConsistent = true ∧ StoresLatch i := by
  cases i with
  | readByte | readWordLe | readWordBe => exact .inl rfl
  | writeByte a v =>
    by_cases ha : a = latchAddr
    · exact .inr ⟨flagsConsistent_written v (.inl ha), .inr (.inl ⟨v, ha ▸ rfl⟩)⟩
    · exact .inl (State.written_flags_other s a v ha)
  | writeWordLe a w =>
    refine (writtenPair_flags s a (loByte w) (hiByte w)).imp_right fun ⟨hc, ha⟩ => ⟨hc, .inr (.inr ⟨w, ?_⟩)⟩
    rcases ha with rfl | rfl
    · exact .inl rfl
    · exact .inr (.inl rfl)
  | writeWordBe a w =>
    refine (writtenPair_flags s a (hiByte w) (loByte w)).imp_right fun ⟨hc, ha⟩ => ⟨hc, .inr (.inr ⟨w, ?_⟩)⟩
    rcases ha with rfl | rfl
    · exact .inr (.inr (.inl rfl))
    · exact .inr (.inr (.inr rfl))
  | reset => exact (writtenPair_flags s 0x0000 0xFF 0x07).imp_right fun ⟨hc, _⟩ => ⟨hc, .inl rfl⟩

/-- Settles O21. Only a completed operation has an effect, and an effect that changes a flag has a byte write at the
latch address, which leaves the flags consistent. -/
theorem flagsChangeOnlyByStoringTheLatch : Obligations.FlagsChangeOnlyByStoringTheLatch := by
  intro i s t he hne
  rcases exec_inversion he with ⟨f, -, rfl⟩ | ⟨f, -, -, rfl⟩ | ⟨hf, -, rfl⟩
  · exact absurd rfl hne
  · exact absurd rfl hne
  · obtain ⟨hconsistent, hstores⟩ := (effect_flags s i).resolve_left hne
    exact ⟨hf, (flagsConsistent_iff _).mp hconsistent, hstores⟩

/-- A byte read of a given visible bank, where it does not raise. -/
theorem exec_readByte_of_resolve {s : State} {a : Addr} {k : BankKind} (hf : s.fault = none)
    (hres : resolve s.flags a.toNat = .ok k) (hp : ¬ PastBasic s.flags a) :
    exec (.readByte a) s = .next (answered s (.byte (s.byteAt k (a.toNat - bankBase k)))) := by
  rw [exec_completes (i := .readByte a) hf ((readFault_eq_none_iff _ a).mpr hp), ← visibleBank_of_resolve hres]
  rfl

/-- The bank in the D window by latch byte, with the bank names of conflict C1. -/
theorem resolve_dWindow_latch (v : Byte) {a : Addr} (hlo : 0xD000 ≤ a.toNat) (hhi : a.toNat ≤ 0xDFFF) :
    resolve (deriveFlags v) a.toNat =
      .ok (if v.toNat % 4 = 0 then .ram else if v.toNat % 8 < 4 then .characterRom else .ioWindow) := by
  have hmod : v.toNat % 4 = v.toNat % 8 % 4 := by omega
  have hlt : v.toNat % 8 < 8 := Nat.mod_lt _ (by decide)
  rw [resolve_dWindow _ hlo hhi, deriveFlags_eq_flagRow, hmod]
  generalize v.toNat % 8 = n at hlt
  interval_cases n <;> rfl

theorem exec_readByte_dWindow {s : State} {v : Byte} {a : Addr} (hf : s.fault = none) (hv : s.flags = deriveFlags v)
    (hlo : 0xD000 ≤ a.toNat) (hhi : a.toNat ≤ 0xDFFF) : exec (.readByte a) s = .next (answered s (.byte
      (if v.toNat % 4 = 0 then s.ram.read a.toNat
        else if v.toNat % 8 < 4 then s.char.read (a.toNat - 0xD000)
        else s.io.read (a.toNat - 0xD000)))) := by
  have hp : ¬ PastBasic s.flags a := fun h => absurd h.2.2 (by omega)
  rw [exec_readByte_of_resolve hf (hv ▸ resolve_dWindow_latch v hlo hhi) hp]
  split_ifs <;> rfl

/-- Settles O22. The read goes through RESOLVE under the flags of the byte just stored; where RAM is visible it reads
another cell than the latch's. -/
theorem latchWriteActsOnTheNextRead : Obligations.LatchWriteActsOnTheNextRead := by
  intro s v a hf hlo hhi
  refine ⟨_, exec_writeByte_latch v hf, ?_⟩
  have hram : s.ram.read a.toNat = (s.ram.write 1 v).read a.toNat := (Memory.read_write_other _ v (by omega)).symm
  rw [hram]
  exact exec_readByte_dWindow hf rfl hlo hhi

end Sys2Proof.Machine
end

section
/-! Byte reads, what they see after a byte write, and what no read sees (`43_byte_access.md` rules R130 to R134,
`20_memory.md`). -/

namespace Sys2Proof.Machine

open Sys2Proof.Claims

theorem not_pastBasic_of_resolve {f : Flags} {a : Addr} {k : BankKind} (hres : resolve f a.toNat = .ok k)
    (hk : k ≠ .basicRom) : ¬ PastBasic f a :=
  fun hp => hk ((visibleBank_of_resolve hres).symm.trans (visibleBank_of_pastBasic hp))

/-- Settles O23. Every clause is a row of the decoding table, and the read answers the byte of the row's bank; the rows
of BASIC-ROM past its end are left out. -/
theorem readByteAnswersTheVisibleByte : Obligations.ReadByteAnswersTheVisibleByte := by
  intro s a hf
  have hlt : a.toNat ≤ 0xFFFF := Nat.le_of_lt_succ a.isLt
  have read : ∀ {k}, resolve s.flags a.toNat = .ok k → k ≠ .basicRom →
      exec (.readByte a) s = .next (answered s (.byte (s.byteAt k (a.toNat - bankBase k)))) :=
    fun hres hk => exec_readByte_of_resolve hf hres (not_pastBasic_of_resolve hres hk)
  refine ⟨?low, ?basicRam, ?basicRom, ?characterRom, ?ioWindow, ?dRam, ?kernalRom, ?kernalRam⟩
  case low => exact fun h => read (resolve_low _ h) nofun
  case basicRam =>
    intro hlo hhi hb
    exact read (k := .ram) (by simp [resolve_basicWindow _ hlo hhi, hb]) nofun
  case basicRom =>
    intro hlo hhi hb
    exact exec_readByte_of_resolve (k := .basicRom) hf
      (by simp [resolve_basicWindow _ hlo (show a.toNat ≤ 0xCFFF by omega), hb]) fun hp => absurd hp.2.1 (by omega)
  case characterRom =>
    intro hlo hhi hc
    exact read (k := .characterRom) (by simp [resolve_dWindow _ hlo hhi, hc]) nofun
  case ioWindow =>
    intro hlo hhi hc hi
    exact read (k := .ioWindow) (by simp [resolve_dWindow _ hlo hhi, hc, hi]) nofun
  case dRam =>
    intro hlo hhi hc hi
    exact read (k := .ram) (by simp [resolve_dWindow _ hlo hhi, hc, hi]) nofun
  case kernalRom =>
    intro hlo hk
    exact read (k := .kernalRom) (by simp [resolve_kernalWindow _ hlo hlt, hk]) nofun
  case kernalRam =>
    intro hlo hk
    exact read (k := .ram) (by simp [resolve_kernalWindow _ hlo hlt, hk]) nofun

theorem wordReadFault_of_pastBasic {f : Flags} {a : Addr} (h : PastBasic f a) :
    expectedFault.wordReadFault f a = some (.bankIndexOutOfRange .basicRom a.toNat) := by
  have ⟨_, hlo, hhi⟩ := h
  unfold expectedFault.wordReadFault
  rw [if_neg (by omega), if_neg fun h' => absurd h'.2 (by omega), readFault_of_pastBasic h]

/-- The second byte of a word read at 0xBFFF is the first address past BASIC-ROM. -/
theorem wordReadFault_at_end {f : Flags} {a : Addr} (hon : f.basicOn = true) (ha : a.toNat = 0xBFFF) :
    expectedFault.wordReadFault f a = some (.bankIndexOutOfRange .basicRom 0xC000) := by
  unfold expectedFault.wordReadFault
  rw [if_neg (by omega), if_pos ⟨hon, ha⟩]

/-- Settles O24. These are the listed faults of the reads, and an operation with a listed fault raises it. -/
theorem readsPastTheBasicRomFault : Obligations.ReadsPastTheBasicRomFault := by
  intro s a hf hon
  refine ⟨fun hlo hhi => ?past, fun ha => ?atEnd⟩
  case past =>
    have hp : PastBasic s.flags a := ⟨hon, hlo, hhi⟩
    exact ⟨exec_raises hf (readFault_of_pastBasic hp), exec_raises hf (wordReadFault_of_pastBasic hp),
      exec_raises hf (wordReadFault_of_pastBasic hp)⟩
  case atEnd => exact ⟨exec_raises hf (wordReadFault_at_end hon ha), exec_raises hf (wordReadFault_at_end hon ha)⟩

/-! ### What a read can tell apart -/

theorem effect_of_isRead {i : Instr} (hi : isRead i = true) (s : State) : s.effect i = s := by
  cases i with
  | readByte | readWordLe | readWordBe => rfl
  | writeByte | writeWordLe | writeWordBe | reset => cases hi

theorem answer_congr_of_isRead {i : Instr} (hi : isRead i = true) {s s' : State}
    (hbyte : ∀ a, s'.visibleByte a = s.visibleByte a) : s'.answer i = s.answer i := by
  cases i with
  | readByte | readWordLe | readWordBe => simp only [State.answer, hbyte]
  | writeByte | writeWordLe | writeWordBe | reset => cases hi

theorem respond_eq_update {s : State} {x : Option Fault} (h : s.fault = x) (r : Response) :
    s.respond r = { s with fault := x, responses := s.responses ++ [r] } := by
  subst h
  rfl

/-- A read looks only at the fault record, the flags and the visible bytes. -/
theorem exec_read_congr {i : Instr} (hi : isRead i = true) (s s' : State) (hfault : s'.fault = s.fault)
    (hflags : s'.flags = s.flags) (hbyte : ∀ a, s'.visibleByte a = s.visibleByte a) :
    ∃ x r, exec i s = .next { s with fault := x, responses := s.responses ++ [r] } ∧
      exec i s' = .next { s' with fault := x, responses := s'.responses ++ [r] } := by
  cases hf : s.fault with
  | some f =>
    have hf' := hfault.trans hf
    exact ⟨_, _, by rw [exec_of_faulted i hf, respond_eq_update hf], by rw [exec_of_faulted i hf', respond_eq_update hf']⟩
  | none =>
    have hf' := hfault.trans hf
    cases he : expectedFault s.flags i with
    | some f => exact ⟨_, _, exec_raises hf he, exec_raises hf' (hflags ▸ he)⟩
    | none =>
      refine ⟨none, s.answer i, ?_, ?_⟩
      · rw [exec_completes hf he, effect_of_isRead hi, respond_eq_update hf]
      · rw [exec_completes hf' (hflags ▸ he), effect_of_isRead hi, respond_eq_update hf', answer_congr_of_isRead hi hbyte]

@[simp] theorem State.respond_visibleByte (s : State) (r : Response) (a : Addr) :
    (s.respond r).visibleByte a = s.visibleByte a := by simp [State.visibleByte]

theorem visibleByte_setBank {s : State} {k : BankKind} (m : Memory) {a : Addr} (h : visibleBank s.flags a ≠ k) :
    (s.setBank k m).visibleByte a = s.visibleByte a := by
  simp only [State.visibleByte, State.byteAt, State.setBank_flags, State.setBank_bank_other s k m h]

/-- A RAM byte under another visible bank is no visible byte. -/
theorem visibleByte_hiddenRam {s : State} {a : Addr} (v : Byte) (h : visibleBank s.flags a ≠ .ram) (b : Addr) :
    State.visibleByte { s with ram := s.ram.write a.toNat v } b = s.visibleByte b := by
  by_cases hb : visibleBank s.flags b = .ram
  · have hab : b.toNat ≠ a.toNat := fun e => h (BitVec.eq_of_toNat_eq e ▸ hb)
    simp only [State.visibleByte, State.byteAt, State.bank, hb, bankBase, Nat.sub_zero]
    exact Memory.read_write_other s.ram v hab
  · exact visibleByte_setBank _ hb

theorem basicOn_of_visibleBank {f : Flags} {a : Addr} (h : visibleBank f a = .basicRom) : f.basicOn = true := by
  unfold visibleBank at h
  split_ifs at h
  assumption

theorem chargenOn_of_visibleBank {f : Flags} {a : Addr} (h : visibleBank f a = .characterRom) : f.chargenOn = true := by
  unfold visibleBank at h
  split_ifs at h
  assumption

theorem kernalOn_of_visibleBank {f : Flags} {a : Addr} (h : visibleBank f a = .kernalRom) : f.kernalOn = true := by
  unfold visibleBank at h
  split_ifs at h
  assumption

/-- No read can tell apart the contents of a bank that is nowhere visible. -/
theorem exec_read_hiddenBank {i : Instr} (hi : isRead i = true) {s : State} {k : BankKind} (m : Memory)
    (h : ∀ a, visibleBank s.flags a ≠ k) :
    ∃ x rs, exec i s = .next { s with fault := x, responses := rs } ∧
      exec i (s.setBank k m) = .next { s.setBank k m with fault := x, responses := rs } := by
  obtain ⟨x, r, he, he'⟩ := exec_read_congr hi s (s.setBank k m) (s.setBank_fault k m) (s.setBank_flags k m)
    fun a => visibleByte_setBank m (h a)
  exact ⟨x, _, he, State.setBank_responses s k m ▸ he'⟩

/-- Settles O29. The bytes named in each clause are no visible bytes: RAM bytes under another bank, and the bytes of a
bank that its flag, or the flags of the I/O window, make visible nowhere. -/
theorem hiddenStorageIsNotReadable : Obligations.HiddenStorageIsNotReadable := by
  intro s i hi
  refine ⟨fun a v h => ?ram, fun m h => ?ioWindow, fun m h => ?basicRom, fun m h => ?characterRom, fun m h => ?kernalRom⟩
  case ram =>
    rw [resolve_addr] at h
    obtain ⟨x, r, he, he'⟩ := exec_read_congr hi s { s with ram := s.ram.write a.toNat v } rfl rfl
      (visibleByte_hiddenRam v fun hram => h (congrArg Except.ok hram))
    exact ⟨x, _, he, he'⟩
  case ioWindow =>
    refine exec_read_hiddenBank (k := .ioWindow) hi m fun a ha => h a ?_
    rw [resolve_addr, ha]
  case basicRom =>
    exact exec_read_hiddenBank (k := .basicRom) hi m fun a ha => by simp [basicOn_of_visibleBank ha] at h
  case characterRom =>
    exact exec_read_hiddenBank (k := .characterRom) hi m fun a ha => by simp [chargenOn_of_visibleBank ha] at h
  case kernalRom =>
    exact exec_read_hiddenBank (k := .kernalRom) hi m fun a ha => by simp [kernalOn_of_visibleBank ha] at h

/-! ### Reads after a write -/

/-- A byte written under a ROM goes to the RAM byte of its address and nowhere else. -/
theorem written_underRom {s : State} {a : Addr} (v : Byte) (h : writeVisible s.flags a = false) :
    s.written a v = { s with ram := s.ram.write a.toNat v } := by
  have hne : a ≠ latchAddr := by
    rintro rfl
    rw [writeVisible, visibleBank_low _ (by decide)] at h
    cases h
  rw [State.written, afterStore, if_neg hne, storeBank_of_not_writeVisible h]
  rfl

/-- Settles O26. After a visible write the visible byte is the one stored; a byte written under a ROM is no visible
byte. -/
theorem visibleWriteReadsBack : Obligations.VisibleWriteReadsBack := by
  intro s t a v hf he
  rw [exec_writeByte_completes hf] at he
  obtain rfl := Host.Outcome.next.inj he
  have hf' : ((s.written a v).respond (.wrote (writeVisible s.flags a))).fault = none := by simp [hf]
  refine ⟨fun hresp => ?visible, fun hresp => ?hidden⟩
  case visible =>
    have hv : writeVisible s.flags a = true := by simpa using hresp
    have hp : ¬ PastBasic (s.written a v).flags a := not_pastBasic_of_writeVisible <|
      (writeVisible_written_self s a v).trans hv
    rw [exec_completes (i := .readByte a) hf' ((readFault_eq_none_iff _ a).mpr hp), State.answer,
      State.respond_visibleByte, visibleByte_written_self v hv]
    rfl
  case hidden =>
    have hv : writeVisible s.flags a = false := by simpa using hresp
    have hram : visibleBank s.flags a ≠ .ram := by
      intro h
      rw [writeVisible, h] at hv
      cases hv
    rw [written_underRom v hv]
    refine ⟨Memory.read_write_same s.ram a.toNat v, ?_⟩
    obtain ⟨x, r, hs, ht⟩ := exec_read_congr (i := .readByte a) rfl s
      (({ s with ram := s.ram.write a.toNat v } : State).respond (.wrote (writeVisible s.flags a))) rfl rfl
      fun b => (State.respond_visibleByte _ _ b).trans (visibleByte_hiddenRam v hram b)
    exact ⟨r, x, hs, ht⟩

/-- Settles O27. The byte goes to RAM at its own address, the latch write stores at another, and RAM is then visible
there. -/
theorem byteUnderRomReadsAfterSwitchingTheRomOut : Obligations.ByteUnderRomReadsAfterSwitchingTheRomOut := by
  intro s t u a v x k hf hres hro het heu hram
  have hv : writeVisible s.flags a = false := by rw [writeVisible, visibleBank_of_resolve hres, hro]; rfl
  rw [exec_writeByte_completes hf, hv, written_underRom v hv] at het
  obtain rfl := Host.Outcome.next.inj het
  have hu := (Host.Outcome.next.inj ((exec_writeByte_latch x (by exact hf)).symm.trans heu)).symm
  have hfault : u.fault = none := by rw [hu]; exact hf
  have hne : a.toNat ≠ 1 := fun e => ne_latchAddr_of_resolve hres (by rintro rfl; cases hro) (BitVec.eq_of_toNat_eq e)
  have hbyte : u.ram.read a.toNat = v := by
    rw [hu]
    exact (Memory.read_write_other _ x hne).trans (Memory.read_write_same s.ram a.toNat v)
  refine ⟨rfl, ?_⟩
  rw [exec_readByte_of_resolve hfault hram (not_pastBasic_of_resolve hram nofun), ← hbyte]
  rfl

theorem written_written_self {s : State} (h : s.wf = true) (a : Addr) (v : Byte) :
    (s.written a v).written a v = s.written a v := by
  refine State.ext_of_bank (fun k => ?bank) ?flags (by simp) (by simp) (by simp) (by simp) (by simp)
  case bank =>
    rw [State.written_bank, visibleBank_written_self, State.written_bank]
    split
    · next hk =>
      subst hk
      exact Memory.write_write_same v v (((State.wf_iff s).mp h).1 _) (storedCell_addr s.flags a).2
    · rfl
  case flags =>
    rw [State.written_flags, State.written_flags]
    split <;> rfl

/-- Settles O28. The second write goes to the cell of the first, under the same visible bank, and a canonical storage is
determined by its bytes. -/
theorem repeatedWriteChangesNothing : Obligations.RepeatedWriteChangesNothing := by
  intro s t a v hwf hf he
  rw [exec_writeByte_completes hf] at he
  obtain rfl := Host.Outcome.next.inj he
  refine ⟨writeVisible s.flags a, by simp, ?_⟩
  rw [exec_writeByte_completes (by simp [hf]), State.respond_written, written_written_self hwf, State.respond_flags,
    writeVisible_written_self]
  rfl

end Sys2Proof.Machine
end

section
/-! Word accesses as pairs of byte accesses (`44_word_access.md` rules R140 to R148). -/

namespace Sys2Proof.Machine

open Sys2Proof.Claims

theorem ne_top_of_toNat {a : Addr} (h : a.toNat ≠ 0xFFFF) : a ≠ 0xFFFF := fun e => h (congrArg BitVec.toNat e)

/-- Settles O30. Where a word read does not fault, neither of its byte reads does, and its word has their two bytes. -/
theorem wordReadsAssembleTwoByteReads : Obligations.WordReadsAssembleTwoByteReads := by
  intro s a hf htop hbasic
  have hword : expectedFault.wordReadFault s.flags a = none := (wordReadFault_eq_none_iff _ a).mpr ⟨htop, hbasic⟩
  obtain ⟨h0, h1⟩ := not_pastBasic_of_wordReadFault hword
  exact ⟨s.visibleByte a, s.visibleByte (a + 1),
    exec_completes (i := .readByte a) hf ((readFault_eq_none_iff _ a).mpr h0),
    exec_completes (i := .readByte (a + 1)) hf ((readFault_eq_none_iff _ (a + 1)).mpr h1),
    exec_completes (i := .readWordLe a) hf hword, exec_completes (i := .readWordBe a) hf hword⟩

/-- The two WRITE_BYTE operations of a word write give the two parts of its answer and leave the state it leaves. -/
theorem exec_two_writeBytes {i : Instr} {s : State} (hf : s.fault = none) {a : Addr} {b0 b1 : Byte}
    (he : exec i s = .next ((s.writtenPair a b0 b1).respond (.wrote (s.pairVisible a b0)))) :
    ∃ t0 t1 v0 v1, exec (.writeByte a b0) s = .next t0 ∧ exec (.writeByte (a + 1) b1) t0 = .next t1 ∧
      t1.responses = s.responses ++ [.wrote v0, .wrote v1] ∧
      exec i s = .next { t1 with responses := s.responses ++ [.wrote (v0 && v1)] } := by
  refine ⟨_, _, writeVisible s.flags a, writeVisible (s.written a b0).flags (a + 1), exec_writeByte_completes hf a b0,
    exec_writeByte_completes (by simp [hf]) (a + 1) b1, by simp, ?_⟩
  rw [he, State.respond_written]
  simp [State.respond, State.writtenPair, State.pairVisible]

theorem lo_eq_loByte (w : Word) : lo w = loByte w := (loByte_eq_setWidth w).symm

theorem hi_eq_hiByte (w : Word) : Claims.hi w = hiByte w := (hiByte_eq_shift w).symm

/-- Settles O31. Both word writes are their pair of byte writes, with the two bytes in the order of the operation. -/
theorem wordWritesAreTwoByteWrites : Obligations.WordWritesAreTwoByteWrites := by
  intro s a w hf htop
  have hnone : expectedFault.topFault a = none := (topFault_eq_none_iff a).mpr htop
  rw [lo_eq_loByte, hi_eq_hiByte]
  exact ⟨exec_two_writeBytes hf (exec_completes (i := .writeWordLe a w) hf hnone),
    exec_two_writeBytes hf (exec_completes (i := .writeWordBe a w) hf hnone)⟩

/-- Settles O32. ADDRESS_OUT_OF_RANGE is the listed fault of all four word operations at 0xFFFF. -/
theorem wordOperationsAtTheTopFault : Obligations.WordOperationsAtTheTopFault :=
  fun _ _ hf => ⟨exec_raises hf rfl, exec_raises hf rfl, exec_raises hf rfl, exec_raises hf rfl⟩

theorem next_ne_self (a : Addr) : a + 1 ≠ a := by simp

/-- If the latch address follows another, that one is 0x0000. -/
theorem toNat_of_next_latch {a : Addr} (h : a + 1 = latchAddr) : a.toNat ≤ 0x9FFF := by
  obtain rfl : a = 0 := add_right_cancel (h : a + 1 = 0 + 1)
  decide

theorem toNat_next_of_latch {a : Addr} (h : a = latchAddr) : (a + 1).toNat ≤ 0x9FFF := by
  subst h
  decide

/-- The bytes a visible word write leaves are the ones both addresses then read, and no read of them faults. -/
theorem writtenPair_reads_back {s : State} {a : Addr} (b0 b1 : Byte) (htop : a.toNat ≠ 0xFFFF)
    (hv : s.pairVisible a b0 = true) :
    expectedFault.wordReadFault (s.writtenPair a b0 b1).flags a = none ∧
      (s.writtenPair a b0 b1).visibleByte a = b0 ∧ (s.writtenPair a b0 b1).visibleByte (a + 1) = b1 := by
  obtain ⟨hv0, hv1⟩ := Bool.and_eq_true_iff.mp hv
  have hbank0 : writeVisible (s.writtenPair a b0 b1).flags a = true := by
    rw [writeVisible, State.writtenPair, visibleBank_written _ _ _ _ toNat_of_next_latch, visibleBank_written_self]
    exact hv0
  have hbank1 : writeVisible (s.writtenPair a b0 b1).flags (a + 1) = true :=
    (writeVisible_written_self _ _ _).trans hv1
  refine ⟨(wordReadFault_eq_none_iff _ a).mpr ⟨htop, fun ⟨hon, hlo, hhi⟩ => ?_⟩, ?_, ?_⟩
  · have hnext := secondAddress_toNat (ne_top_of_toNat htop)
    by_cases ha : a.toNat = 0xBFFF
    · exact not_pastBasic_of_writeVisible hbank1 ⟨hon, by omega, by omega⟩
    · exact not_pastBasic_of_writeVisible hbank0 ⟨hon, by omega, hhi⟩
  · rw [State.writtenPair, visibleByte_written_other b1 (next_ne_self a).symm toNat_of_next_latch,
      visibleByte_written_self b0 hv0]
  · exact visibleByte_written_self b1 hv1

/-- An operation that answers `Wrote(true)` completed. -/
theorem completes_of_wrote_true {i : Instr} {s t : State} (hf : s.fault = none) (he : exec i s = .next t)
    (hresp : t.responses = s.responses ++ [.wrote true]) :
    expectedFault s.flags i = none ∧ s.answer i = .wrote true ∧ t = (s.effect i).respond (s.answer i) := by
  rcases exec_inversion he with ⟨f, hf', -⟩ | ⟨f, -, -, rfl⟩ | ⟨-, hnone, rfl⟩
  · cases hf.symm.trans hf'
  · simp at hresp
  · exact ⟨hnone, by simpa using hresp, rfl⟩

/-- Both word reads after a word write that answers true. -/
theorem exec_wordReads_of_wordWrite {i : Instr} {s t : State} {a : Addr} {b0 b1 : Byte}
    (heffect : s.effect i = s.writtenPair a b0 b1) (hanswer : s.answer i = .wrote (s.pairVisible a b0))
    (hlisted : expectedFault s.flags i = expectedFault.topFault a) (hf : s.fault = none) (he : exec i s = .next t)
    (hresp : t.responses = s.responses ++ [.wrote true]) :
    exec (.readWordLe a) t = .next (answered t (.word (b1 ++ b0))) ∧
      exec (.readWordBe a) t = .next (answered t (.word (b0 ++ b1))) := by
  obtain ⟨hnone, hv, rfl⟩ := completes_of_wrote_true hf he hresp
  obtain ⟨hread, h0, h1⟩ := writtenPair_reads_back b0 b1 ((topFault_eq_none_iff a).mp (hlisted.symm.trans hnone))
    (Response.wrote.inj (hanswer.symm.trans hv))
  rw [← heffect] at hread h0 h1
  have hf' : ((s.effect i).respond (s.answer i)).fault = none := by simp [hf]
  refine ⟨(exec_completes (i := .readWordLe a) hf' hread).trans ?_,
    (exec_completes (i := .readWordBe a) hf' hread).trans ?_⟩ <;>
  · rw [State.answer, State.respond_visibleByte, State.respond_visibleByte, h0, h1]
    rfl

/-- Settles O33. Both bytes of a visible word write are read back, so each read assembles the two bytes in its own
order. -/
theorem visibleWordWriteRoundTrips : Obligations.VisibleWordWriteRoundTrips := by
  intro s t a w hf hresp
  rw [lo_eq_loByte, hi_eq_hiByte]
  refine ⟨fun he => ?le, fun he => ?be⟩
  case le =>
    obtain ⟨hle, hbe⟩ := exec_wordReads_of_wordWrite (i := .writeWordLe a w) rfl rfl rfl hf he hresp
    exact ⟨hiByte_append_loByte w ▸ hle, hbe⟩
  case be =>
    obtain ⟨hle, hbe⟩ := exec_wordReads_of_wordWrite (i := .writeWordBe a w) rfl rfl rfl hf he hresp
    exact ⟨hiByte_append_loByte w ▸ hbe, hle⟩

/-- Byte writes at two addresses commute, if neither stores the latch while the other lies in a window. -/
theorem written_comm {s : State} (hwf : s.wf = true) {a b : Addr} (u v : Byte) (hab : a ≠ b)
    (ha : a = latchAddr → b.toNat ≤ 0x9FFF) (hb : b = latchAddr → a.toNat ≤ 0x9FFF) :
    (s.written a u).written b v = (s.written b v).written a u := by
  refine State.ext_of_bank (fun k => ?bank) ?flags (by simp) (by simp) (by simp) (by simp) (by simp)
  case bank =>
    simp only [State.written_bank, visibleBank_written s a b u ha, visibleBank_written s b a v hb]
    by_cases hka : k = storeBank (visibleBank s.flags a)
    · by_cases hkb : k = storeBank (visibleBank s.flags b)
      · simp only [← hka, ← hkb, if_true]
        refine Memory.write_comm u v (((State.wf_iff s).mp hwf).1 k) ?_ ?_ ?_
        · exact hka ▸ (storedCell_addr s.flags a).2
        · exact hkb ▸ (storedCell_addr s.flags b).2
        · have hla := hka ▸ bankBase_storeBank_le s.flags a
          have hlb := hkb ▸ bankBase_storeBank_le s.flags b
          exact fun e => hab (BitVec.eq_of_toNat_eq (by omega))
      · simp only [if_neg hkb]
    · simp only [if_neg hka]
  case flags =>
    simp only [State.written_flags]
    by_cases hl : b = latchAddr
    · have hne : a ≠ latchAddr := fun e => hab (e.trans hl.symm)
      simp only [if_pos hl, if_neg hne]
    · simp only [if_neg hl]

/-- Settles O34. The latch address and its neighbours lie below every window, so neither byte write changes where the
other goes. -/
theorem wordWriteOrderIsUnobservable : Obligations.WordWriteOrderIsUnobservable := by
  intro s a b0 b1 hwf _
  refine ⟨_, _, _, _, (s.written a b0).written (a + 1) b1, writeByte_written a b0 s, ?_, writeByte_written (a + 1) b1 s, ?_⟩
  · rw [writeByte_written, visibleBank_written s a (a + 1) b0 toNat_next_of_latch]
  · rw [writeByte_written, visibleBank_written s (a + 1) a b1 toNat_of_next_latch,
      written_comm hwf b0 b1 (next_ne_self a).symm toNat_next_of_latch toNat_of_next_latch]

end Sys2Proof.Machine
end

section
/-! RESET and construction (`45_reset_op.md` rules R150 to R154, `10_state.md` rule R37). -/

namespace Sys2Proof.Machine

open Sys2Proof.Claims

/-- RESET's two stores again: of two stores at one index the later stands, and these two indices differ. -/
theorem resetStores_idempotent {m : Memory} (h : m.wf (bankLength .ram) = true) :
    (((m.write 0 0xFF).write 1 0x07).write 0 0xFF).write 1 0x07 = (m.write 0 0xFF).write 1 0x07 := by
  have h0 : 0 < bankLength .ram := by decide
  have h1 : 1 < bankLength .ram := by decide
  have hw := Memory.wf_write 0xFF h h0
  rw [Memory.write_comm 0x07 0xFF hw h1 h0 (by decide), Memory.write_write_same _ _ h h0,
    Memory.write_write_same _ _ hw h1]

/-- Settles O36. The second RESET stores the bytes already there and derives the flags already there. -/
theorem resetIsIdempotent : Obligations.ResetIsIdempotent := by
  intro s t hwf hf he
  rw [exec_reset_eq hf] at he
  obtain rfl := Host.Outcome.next.inj he
  refine (exec_reset_eq (by exact hf)).trans ?_
  have hram := resetStores_idempotent (m := s.ram) (((State.wf_iff s).mp hwf).1 .ram)
  simp only [State.respond_ram, hram]
  rfl

/-- RESET leaves the flags of the latch value 7 it stores. -/
theorem reset_inv {s t : State} (hwf : s.wf = true) (hf : s.fault = none) (he : exec .reset s = .next t) : t.Inv := by
  have ht := Host.Outcome.next.inj ((exec_completes hf rfl).symm.trans he)
  rw [← ht]
  have hconsistent : (s.effect .reset).flagsConsistent = true := flagsConsistent_written 0x07 (.inl rfl)
  exact ⟨wf_effect .reset hwf, hconsistent⟩

/-- Settles O51. RESET keeps the canonical form as every operation does, and its last byte write derives the flags. -/
theorem resetEstablishesTheInvariant : Obligations.ResetEstablishesTheInvariant :=
  fun _ hwf hf => ⟨_, exec_reset_eq hf, reset_inv hwf hf (exec_reset_eq hf)⟩

theorem rightLengths_iff (p : ConstructParams) : rightLengths p ↔ ∀ k, (imageFor p k).length = bankLength k := by
  constructor
  · rintro ⟨hbasic, hchar, hkernal, hram, hio⟩ k
    cases k <;> assumption
  · intro h
    exact ⟨h .basicRom, h .characterRom, h .kernalRom, h .ram, h .ioWindow⟩

theorem wrongImage_eq_none_iff (p : ConstructParams) : wrongImage p = none ↔ rightLengths p := by
  rw [rightLengths_iff, wrongImage, List.find?_eq_none]
  constructor
  · intro h k
    simpa using h k (by cases k <;> decide)
  · intro h k _
    simp [h k]

theorem construct_of_rightLengths {p : ConstructParams} (h : rightLengths p) : construct p = .next (constructed p) := by
  rw [construct, (wrongImage_eq_none_iff p).mpr h]

theorem construct_of_wrongImage {p : ConstructParams} {k : BankKind} (h : wrongImage p = some k) :
    construct p = .refused (.imageLength k (imageFor p k).length) := by rw [construct, h]

/-- Settles O38. Construction looks for a wrong length: it finds none exactly when all five are right, and one it finds
is wrong. -/
theorem constructionRefusesExactlyWrongLengths : Obligations.ConstructionRefusesExactlyWrongLengths := by
  intro p
  cases hw : wrongImage p with
  | none =>
    have hright := (wrongImage_eq_none_iff p).mp hw
    simp [hright, construct_of_rightLengths hright]
  | some k =>
    have hwrong : ¬ rightLengths p := fun h => by simp [(wrongImage_eq_none_iff p).mpr h] at hw
    have hlength : (imageFor p k).length ≠ bankLength k := by simpa using List.find?_some hw
    simp [hwrong, construct_of_wrongImage hw, hlength]

theorem constructed_bank (p : ConstructParams) (k : BankKind) :
    (constructed p).bank k = Memory.ofBytes (imageFor p k) := by cases k <;> rfl

theorem constructed_wf {p : ConstructParams} (h : rightLengths p) : (constructed p).wf = true := by
  refine (State.wf_iff _).mpr ⟨fun k => ?_, rfl, rfl⟩
  rw [constructed_bank]
  exact Memory.wf_ofBytes ((rightLengths_iff p).mp h k)

/-- The bytes of RAM behind RESET's two stores. -/
theorem read_resetStores (m : Memory) : ((m.write 0 0xFF).write 1 0x07).read 0 = 0xFF ∧
    ((m.write 0 0xFF).write 1 0x07).read 1 = 0x07 ∧
    ∀ i, 2 ≤ i → ((m.write 0 0xFF).write 1 0x07).read i = m.read i := by
  refine ⟨by simp [Memory.read_write], by simp, fun i hi => ?_⟩
  rw [Memory.read_write_other _ _ (by omega), Memory.read_write_other _ _ (by omega)]

/-- Settles O37. A bank built from its bytes reads them back; RESET stores its two bytes and the flags of latch value 7
and touches nothing else. -/
theorem constructionThenResetLeavesTheListedValues : Obligations.ConstructionThenResetLeavesTheListedValues := by
  intro p hp
  have hreset := exec_reset_eq (s := constructed p) rfl
  obtain ⟨hzero, hone, hrest⟩ := read_resetStores (constructed p).ram
  have hbytes : ∀ l i, (Memory.ofBytes l).read i = l.getD i 0 := Memory.read_ofBytes
  exact ⟨constructed p, _, construct_of_rightLengths hp, hreset,
    fun i => ⟨hbytes _ i, hbytes _ i, hbytes _ i, hbytes _ i, hbytes _ i⟩,
    rfl, rfl, rfl, rfl, constructed_wf hp,
    hzero, hone, fun i hi => (hrest i hi).trans (hbytes _ i), ⟨rfl, rfl, rfl, rfl⟩,
    rfl, rfl, rfl, rfl, reset_inv (constructed_wf hp) rfl hreset⟩

theorem zeroFilled_rightLengths (f : Flags) : rightLengths (zeroFilled f) :=
  ⟨List.length_replicate, List.length_replicate, List.length_replicate, List.length_replicate, List.length_replicate⟩

theorem constructed_zeroFilled (f : Flags) :
    constructed (zeroFilled f) = { State.reset with ram := [], flags := f } := by
  have hzero : ∀ n, Memory.ofBytes (List.replicate n (0 : Byte)) = [] := Memory.ofBytes_replicate
  simp only [constructed, zeroFilled, hzero, State.reset]

/-- Settles O39. Zero-filled banks list no byte, and RESET stores the two bytes `State.reset` lists. -/
theorem resetStateIsAZeroFilledBlockAfterReset : Obligations.ResetStateIsAZeroFilledBlockAfterReset := by
  intro f
  refine ⟨_, construct_of_rightLengths (zeroFilled_rightLengths f), ?_⟩
  rw [constructed_zeroFilled, exec_reset_eq rfl]
  rfl

/-- Settles O40, by reading the fields of `State.reset`. -/
theorem resetStateHoldsTheSpecifiedValues : Obligations.ResetStateHoldsTheSpecifiedValues := by
  unfold Obligations.ResetStateHoldsTheSpecifiedValues
  decide

/-- Settles O48. The invariant and finality are checks on the one state `State.reset`. -/
theorem resetStateMeetsTheInvariant : Obligations.ResetStateMeetsTheInvariant :=
  ⟨⟨by decide, by decide⟩, by decide⟩

end Sys2Proof.Machine
end

section
/-! Where operations fault, and what each operation leaves unchanged (`60_exceptions.md` rules R160 to R169,
`10_state.md`, the frame rule). -/

namespace Sys2Proof.Machine

open Sys2Proof.Claims

/-- Settles O41. A faulted block answers every operation alike, with the code of its fault. -/
theorem faultedBlockAnswersOnlyItsFault : Obligations.FaultedBlockAnswersOnlyItsFault :=
  fun i _ _ _ => ⟨exec_of_faulted i, exec_of_faulted i, exec_of_faulted i⟩

/-- Settles O43. An operation raises the fault listed for it, which changes nothing but the record and the responses, or
none is listed and it completes without one. -/
theorem operationsFaultExactlyWhereListed : Obligations.OperationsFaultExactlyWhereListed := by
  intro i s hf
  cases he : expectedFault s.flags i with
  | some f =>
    refine ⟨_, exec_raises hf he, rfl, fun g hg => ?_⟩
    obtain rfl := Option.some.inj hg
    rfl
  | none =>
    have hnone : ((s.effect i).respond (s.answer i)).fault = none := by simp [hf]
    exact ⟨_, exec_completes hf he, hnone, fun g hg => by cases hnone.symm.trans hg⟩

/-- Settles O44. A read has no effect, so all three things an operation can do leave every field but the fault record
and the responses. -/
theorem readsChangeOnlyFaultAndResponses : Obligations.ReadsChangeOnlyFaultAndResponses := by
  intro i s t hi he
  rcases exec_inversion he with ⟨f, hf, rfl⟩ | ⟨f, hf, -, rfl⟩ | ⟨hf, -, rfl⟩
  · exact ⟨by simp, rfl, sameElsewhere_refl s, _, _, respond_eq_update rfl _, fun _ => rfl⟩
  · exact ⟨by simp, rfl, sameElsewhere_refl s, _, _, rfl, fun h => absurd hf h⟩
  · rw [effect_of_isRead hi]
    exact ⟨by simp, rfl, sameElsewhere_refl s, _, _, respond_eq_update rfl _, fun _ => rfl⟩

theorem exec_adds_response {i : Instr} {s t : State} (h : exec i s = .next t) :
    ∃ r, t.responses = s.responses ++ [r] := by
  obtain ⟨r, hr, -⟩ := exec_answers h
  exact ⟨r, hr⟩

/-- The cell a byte goes to is in RAM or in the I/O window. -/
theorem bank_of_storedCell {f : Flags} {a : Addr} {k : BankKind} {j : Nat} (h : storedCell f a = some (k, j)) :
    k = .ram ∨ k = .ioWindow := by
  obtain ⟨rfl, -⟩ := Prod.mk.inj (Option.some.inj ((storedCell_addr f a).1.symm.trans h))
  rcases storeBank_visibleBank f a with hb | ⟨hb, -⟩
  · exact .inl hb
  · exact .inr hb

/-- Settles O45. A faulted block changes no byte; one without a fault completes, with the one cell stored. -/
theorem writeByteChangesOneCell : Obligations.WriteByteChangesOneCell := by
  intro s t a v he
  have hcell : storedCell s.flags a ≠ none := by rw [(storedCell_addr s.flags a).1]; nofun
  have hsame := exec_sameElsewhere he
  have hresp := exec_adds_response he
  cases hf : s.fault with
  | some f =>
    rw [exec_of_faulted _ hf] at he
    obtain rfl := Host.Outcome.next.inj he
    refine ⟨fun k j h => ⟨bank_of_storedCell h, nofun, ?_⟩, hcell, fun _ => rfl, hf, hsame, ?_, hresp⟩ <;> simp
  | none =>
    rw [exec_writeByte_completes hf] at he
    obtain rfl := Host.Outcome.next.inj he
    refine ⟨fun k j h => ⟨bank_of_storedCell h, fun _ => ?stored, fun k' j' hne => ?others⟩, hcell, ?flags, by simp [hf],
      hsame, fun h => absurd rfl h, hresp⟩
    case stored => rw [State.respond_byteAt, byteAt_written_of_storedCell v h, if_pos rfl]
    case others => rw [State.respond_byteAt, byteAt_written_of_storedCell v h, if_neg hne]
    case flags => exact fun ha => State.written_flags_other s a v fun e => ha (congrArg BitVec.toNat e)

/-- Two byte writes in a row change two cells: that of the first address under the flags before, and that of the second
under the flags the first write leaves. -/
theorem byteAt_writtenPair_of_ne {s : State} {a : Addr} {k : BankKind} {j : Nat} (b0 b1 : Byte)
    (h0 : storedCell s.flags a ≠ some (k, j)) (h1 : storedCell (s.written a b0).flags (a + 1) ≠ some (k, j)) :
    (s.writtenPair a b0 b1).byteAt k j = s.byteAt k j :=
  (byteAt_written_of_ne b1 h1).trans (byteAt_written_of_ne b0 h0)

theorem writtenPair_flags_of_one_lt {s : State} {a : Addr} (b0 b1 : Byte) (h : 1 < a.toNat) :
    (s.writtenPair a b0 b1).flags = s.flags := by
  refine (writtenPair_flags s a b0 b1).resolve_right ?_
  rintro ⟨-, rfl | rfl⟩ <;> exact absurd h (by decide)

/-- What the two word writes share: the pair of byte writes they are, and the one fault listed for them. -/
theorem wordWrite_effect {i : Instr} {a : Addr} {w : Word} {b : Byte}
    (hi : i = .writeWordLe a w ∧ b = lo w ∨ i = .writeWordBe a w ∧ b = Claims.hi w) :
    ∃ b1, (∀ s : State, s.effect i = s.writtenPair a b b1) ∧ ∀ f, expectedFault f i = expectedFault.topFault a := by
  rcases hi with ⟨rfl, rfl⟩ | ⟨rfl, rfl⟩
  · exact ⟨hiByte w, fun s => congrArg (s.writtenPair a · _) (lo_eq_loByte w).symm, fun _ => rfl⟩
  · exact ⟨loByte w, fun s => congrArg (s.writtenPair a · _) (hi_eq_hiByte w).symm, fun _ => rfl⟩

/-- Settles O46. A faulted block and a word write at 0xFFFF change no byte; any other completes as its two byte
writes. -/
theorem wordWritesChangeTwoCells : Obligations.WordWritesChangeTwoCells := by
  intro s t t0 a w b i hi he0 he
  have hsame := exec_sameElsewhere he
  have hresp := exec_adds_response he
  obtain ⟨b1, heffect, hlisted⟩ := wordWrite_effect hi
  rcases exec_inversion he with ⟨f, -, rfl⟩ | ⟨f, hf, hf', rfl⟩ | ⟨hf, hnone, rfl⟩
  · exact ⟨by simp, by simp, fun _ => rfl, hsame, fun _ => rfl, fun _ => ⟨rfl, rfl, by simp⟩, hresp⟩
  · rw [hlisted] at hf'
    have htop : a.toNat = 0xFFFF := by
      by_contra h
      cases hf'.symm.trans ((topFault_eq_none_iff a).mpr h)
    exact ⟨by simp, by simp, fun _ => rfl, hsame, fun h => absurd htop h, fun h => absurd hf h, hresp⟩
  · rw [hlisted, topFault_eq_none_iff] at hnone
    rw [exec_writeByte_completes hf] at he0
    obtain rfl := Host.Outcome.next.inj he0
    refine ⟨fun k j h0 h1 => ?bytes, fun h => absurd h hnone, fun h => ?flags, hsame, fun _ => by simp,
      fun h => absurd hf h, hresp⟩
    case bytes => rw [State.respond_byteAt, heffect, byteAt_writtenPair_of_ne b b1 h0 h1]
    case flags => rw [State.respond_flags, heffect, writtenPair_flags_of_one_lt b b1 h]

/-- Settles O47. RESET's effect is a word write at 0x0000, and both of its addresses lie in RAM. -/
theorem resetChangesTwoBytesAndFlags : Obligations.ResetChangesTwoBytesAndFlags := by
  intro s t he
  have hsame := exec_sameElsewhere he
  have hresp := exec_adds_response he
  cases hf : s.fault with
  | some f =>
    rw [exec_of_faulted _ hf] at he
    obtain rfl := Host.Outcome.next.inj he
    exact ⟨by simp, hf, hsame, by simp, hresp⟩
  | none =>
    rw [exec_completes hf rfl] at he
    obtain rfl := Host.Outcome.next.inj he
    refine ⟨fun k j h0 h1 => ?bytes, by simp [hf], hsame, fun h => absurd rfl h, hresp⟩
    case bytes =>
      have hcell0 : storedCell s.flags 0x0000 = some (.ram, 0) :=
        storedCell_of_storeBank_ram (by rw [visibleBank_low _ (by decide)]; rfl)
      have hcell1 : storedCell (s.written 0x0000 0xFF).flags (0x0000 + 1) = some (.ram, 1) :=
        storedCell_of_storeBank_ram (by rw [visibleBank_low _ (by decide)]; rfl)
      rw [State.respond_byteAt]
      refine byteAt_writtenPair_of_ne _ _ ?_ ?_
      · rw [hcell0]; exact fun h => h0 (Option.some.inj h).symm
      · rw [hcell1]; exact fun h => h1 (Option.some.inj h).symm

end Sys2Proof.Machine
end
